-- ==== Sys2Proof/Word.lean ====
section
/-! DEFINITION. The word types of the block: bytes, i16 fields, pixels, glyph bitmaps, points. -/

namespace Sys2Proof

/-- A byte of either channel or of a glyph row, bit 7 most significant (R12). -/
abbrev Byte := BitVec 8

/-- The two bytes of an i16 field, as one word (R92). -/
abbrev Word16 := BitVec 16

/-- A 6-bit index into the master colour table (R25, D2). -/
abbrev Pixel := Fin 64

/-- One slot of the glyph store: eight row bytes, row 0 at the top (R31). -/
abbrev Glyph := Vector Byte 8

/-- The all-zero bitmap (R172). -/
def Glyph.blank : Glyph := Vector.replicate 8 0

/-- A point of device or logical space: x to the right, unbounded integers (R13, R15). -/
structure Point where
  x : Int
  y : Int
  deriving DecidableEq, Repr

end Sys2Proof
end

