-- ==== Sys2Proof/Syntax.lean ====
section
/-! DEFINITION. The commands: one constructor per mnemonic of spec/opcode_table.json (R95, R96). -/

namespace Sys2Proof

/-- A decoded command with its operands: u8 operands as bytes, i16 operands as the 16 bits of the
stream's two bytes (R92, R93). The table's rows that share a mnemonic share a constructor. -/
inductive Instr where
  /-- `UNK b`: a reserved first byte (R133). -/
  | unk (b : Byte)
  /-- `LEFT` (R174). -/
  | left
  /-- `RIGHT` (R175). -/
  | right
  /-- `DOWN` (R177). -/
  | down
  /-- `UP` (R173). -/
  | up
  /-- `CLS` (R181). -/
  | cls
  /-- `CR` (R179). -/
  | cr
  /-- `CLG` (R251). -/
  | clg
  /-- `COLOUR c` (R262). -/
  | colour (c : Byte)
  /-- `GCOL m, c` (R263). -/
  | gcol (m c : Byte)
  /-- `DEFCOL s, p, r, g, b` (R264). -/
  | defcol (s p r g b : Byte)
  /-- `MODE m` (R150). -/
  | mode (m : Byte)
  /-- `GPOLL b` (R141). -/
  | gpoll (b : Byte)
  /-- `KEYNOP` (R142). -/
  | keynop
  /-- `QCURSOR` (R143). -/
  | qcursor
  /-- `AUDIO ch, wf, vol, freq, dur` (R144). -/
  | audio (ch wf vol : Byte) (freq dur : Word16)
  /-- `QMODE` (R145). -/
  | qmode
  /-- `LOGICAL b` (R146). -/
  | logical (b : Byte)
  /-- `XUNK 0, t`: an unknown sub-selector (R147). -/
  | xunkSub (t : Byte)
  /-- `XUNK s`: an unknown selector (R148). -/
  | xunkSel (s : Byte)
  /-- `DEFGLYPH c, r0..r7` (R149). -/
  | defglyph (c r0 r1 r2 r3 r4 r5 r6 r7 : Byte)
  /-- `PLOT m, x, y` (R220). -/
  | plot (m : Byte) (x y : Word16)
  /-- `ORIGIN x, y` (R250). -/
  | origin (x y : Word16)
  /-- `HOME` (R180). -/
  | home
  /-- `TAB col, row` (R182). -/
  | tab (col row : Byte)
  /-- `CHR c`: a printable glyph (R176). -/
  | chr (c : Byte)
  /-- `BS` (R183). -/
  | bs
  deriving DecidableEq, Repr

end Sys2Proof
end

