-- ==== Sys2Proof/WellFormed.lean ====
section
/-! DEFINITION. Which operand values the encodings admit (R95, R96, R98, R99). -/

namespace Sys2Proof

/-- The reserved first bytes (R98). -/
def unknownFirst (b : Byte) : Bool :=
  b ≤ 0x07#8 || b == 0x0E#8 || b == 0x0F#8 || b == 0x14#8 || b == 0x15#8 || b == 0x18#8
    || b == 0x1A#8 || b == 0x1B#8 || b == 0x1C#8

/-- The printable codes: 0x20..0x7E and 0x80..0xFF (R95). -/
def printable (c : Byte) : Bool := 0x20#8 ≤ c && c != 0x7F#8

/-- The sub-selectors after 0x17 0x00 that name no command (R147). -/
def unknownSub (t : Byte) : Bool :=
  t != 0x80#8 && t != 0x81#8 && t != 0x82#8 && t != 0x85#8 && t != 0x86#8 && t != 0xC0#8

/-- The selectors after 0x17 that name no command: 0x01..0x1F (R148). -/
def unknownSel (s : Byte) : Bool := 0x01#8 ≤ s && s ≤ 0x1F#8

/-- The selectors after 0x17 that redefine a glyph: 0x20..0xFF (R149). -/
def glyphSel (c : Byte) : Bool := 0x20#8 ≤ c

/-- An instruction is well formed when its operands are values its encoding can carry. -/
def Instr.wellFormed : Instr → Bool
  | .unk b => unknownFirst b
  | .left => true
  | .right => true
  | .down => true
  | .up => true
  | .cls => true
  | .cr => true
  | .clg => true
  | .colour _ => true
  | .gcol _ _ => true
  | .defcol _ _ _ _ _ => true
  | .mode _ => true
  | .gpoll _ => true
  | .keynop => true
  | .qcursor => true
  | .audio _ _ _ _ _ => true
  | .qmode => true
  | .logical _ => true
  | .xunkSub t => unknownSub t
  | .xunkSel s => unknownSel s
  | .defglyph c _ _ _ _ _ _ _ _ => glyphSel c
  | .plot _ _ _ => true
  | .origin _ _ => true
  | .home => true
  | .tab _ _ => true
  | .chr c => printable c
  | .bs => true

end Sys2Proof
end

