-- ==== Sys2Proof/Decode.lean ====
section
/-! DEFINITION. Decoding the command stream and encoding commands (R90–R99, R105). -/

namespace Sys2Proof

/-- Why a prefix of the stream is not yet a command. Every byte string that is long enough decodes
(R95 lists all first bytes, R96 all selectors), so these are the only reasons. -/
inductive DecodeReject where
  /-- No first byte is there: `Poll` returns none (R65). -/
  | noFirstByte
  /-- A committed command lacks `need` further bytes, as far as its prefix tells (R23). -/
  | truncated (need : Nat)
  deriving DecidableEq, Repr

/-- The total length of a one-format command from its first byte (R97). -/
def lengthOfFirst (b0 : Byte) : Nat :=
  match b0 with
  | 0x11#8 => 2
  | 0x16#8 => 2
  | 0x12#8 => 3
  | 0x1F#8 => 3
  | 0x1D#8 => 5
  | 0x13#8 => 6
  | 0x19#8 => 6
  | _ => 1

/-- The total length of `0x17 0x00 t …` (R97). -/
def lengthOfSub (t : Byte) : Nat :=
  match t with
  | 0x80#8 => 4
  | 0xC0#8 => 4
  | 0x85#8 => 10
  | _ => 3

/-- The length function of R97 on a prefix of the stream: the bytes the command has for certain, as
far as the prefix tells. A selector or sub-selector not yet there counts as one byte (R23, R140). -/
def knownLength : List Byte → Nat
  | [] => 1
  | b0 :: rest =>
    if b0 = 0x17#8 then
      match rest with
      | [] => 2
      | s :: rest =>
        if s = 0x00#8 then
          match rest with
          | [] => 3
          | t :: _ => lengthOfSub t
        else if glyphSel s then 10 else 2
    else lengthOfFirst b0

/-- The further bytes a committed command needs (R23). -/
def needed (bs : List Byte) : Nat := knownLength bs - bs.length

/-- The word of an i16 field: the low byte comes first (R67, R92). -/
def word16 (lo hi : Byte) : Word16 := hi ++ lo

/-- The low byte of an i16 field. -/
def loByte (w : Word16) : Byte := w.setWidth 8

/-- The high byte of an i16 field. -/
def hiByte (w : Word16) : Byte := (w >>> 8).setWidth 8

/-- A command whose arguments follow in `rest`; `none` where they are not all there. -/
def decodeSub (t : Byte) (rest : List Byte) : Option (Instr × List Byte) :=
  match t with
  | 0x80#8 => match rest with
    | b :: r => some (.gpoll b, r)
    | _ => none
  | 0x81#8 => some (.keynop, rest)
  | 0x82#8 => some (.qcursor, rest)
  | 0x85#8 => match rest with
    | ch :: wf :: vol :: f0 :: f1 :: d0 :: d1 :: r =>
      some (.audio ch wf vol (word16 f0 f1) (word16 d0 d1), r)
    | _ => none
  | 0x86#8 => some (.qmode, rest)
  | 0xC0#8 => match rest with
    | b :: r => some (.logical b, r)
    | _ => none
  | t => some (.xunkSub t, rest)

/-- The extended map after first byte 0x17 (R96, R140). -/
def decodeExt (bs : List Byte) : Option (Instr × List Byte) :=
  match bs with
  | [] => none
  | s :: rest =>
    if s = 0x00#8 then
      match rest with
      | [] => none
      | t :: r => decodeSub t r
    else if glyphSel s then
      match rest with
      | r0 :: r1 :: r2 :: r3 :: r4 :: r5 :: r6 :: r7 :: r =>
        some (.defglyph s r0 r1 r2 r3 r4 r5 r6 r7, r)
      | _ => none
    else some (.xunkSel s, rest)

/-- The first-byte map (R95), with the command's argument bytes taken from `rest`. -/
def decodeFirst (b0 : Byte) (rest : List Byte) : Option (Instr × List Byte) :=
  match b0 with
  | 0x08#8 => some (.left, rest)
  | 0x09#8 => some (.right, rest)
  | 0x0A#8 => some (.down, rest)
  | 0x0B#8 => some (.up, rest)
  | 0x0C#8 => some (.cls, rest)
  | 0x0D#8 => some (.cr, rest)
  | 0x10#8 => some (.clg, rest)
  | 0x11#8 => match rest with
    | c :: r => some (.colour c, r)
    | _ => none
  | 0x12#8 => match rest with
    | m :: c :: r => some (.gcol m c, r)
    | _ => none
  | 0x13#8 => match rest with
    | s :: p :: r' :: g :: b :: r => some (.defcol s p r' g b, r)
    | _ => none
  | 0x16#8 => match rest with
    | m :: r => some (.mode m, r)
    | _ => none
  | 0x17#8 => decodeExt rest
  | 0x19#8 => match rest with
    | m :: x0 :: x1 :: y0 :: y1 :: r => some (.plot m (word16 x0 x1) (word16 y0 y1), r)
    | _ => none
  | 0x1D#8 => match rest with
    | x0 :: x1 :: y0 :: y1 :: r => some (.origin (word16 x0 x1) (word16 y0 y1), r)
    | _ => none
  | 0x1E#8 => some (.home, rest)
  | 0x1F#8 => match rest with
    | col :: row :: r => some (.tab col row, r)
    | _ => none
  | 0x7F#8 => some (.bs, rest)
  | b => if 0x20#8 ≤ b then some (.chr b, rest) else some (.unk b, rest)

/-- One command from the head of the stream and the bytes after it, or why there is none yet.
Total on any bytes; an argument byte is never decoded as a command (R105). -/
def decode (bs : List Byte) : Except DecodeReject (Instr × List Byte) :=
  match bs with
  | [] => .error .noFirstByte
  | b0 :: rest =>
    match decodeFirst b0 rest with
    | some r => .ok r
    | none => .error (.truncated (needed (b0 :: rest)))

/-- The bytes of an instruction (R91, R96, R103). -/
def encode : Instr → List Byte
  | .unk b => [b]
  | .left => [0x08#8]
  | .right => [0x09#8]
  | .down => [0x0A#8]
  | .up => [0x0B#8]
  | .cls => [0x0C#8]
  | .cr => [0x0D#8]
  | .clg => [0x10#8]
  | .colour c => [0x11#8, c]
  | .gcol m c => [0x12#8, m, c]
  | .defcol s p r g b => [0x13#8, s, p, r, g, b]
  | .mode m => [0x16#8, m]
  | .gpoll b => [0x17#8, 0x00#8, 0x80#8, b]
  | .keynop => [0x17#8, 0x00#8, 0x81#8]
  | .qcursor => [0x17#8, 0x00#8, 0x82#8]
  | .audio ch wf vol f d =>
    [0x17#8, 0x00#8, 0x85#8, ch, wf, vol, loByte f, hiByte f, loByte d, hiByte d]
  | .qmode => [0x17#8, 0x00#8, 0x86#8]
  | .logical b => [0x17#8, 0x00#8, 0xC0#8, b]
  | .xunkSub t => [0x17#8, 0x00#8, t]
  | .xunkSel s => [0x17#8, s]
  | .defglyph c r0 r1 r2 r3 r4 r5 r6 r7 => [0x17#8, c, r0, r1, r2, r3, r4, r5, r6, r7]
  | .plot m x y => [0x19#8, m, loByte x, hiByte x, loByte y, hiByte y]
  | .origin x y => [0x1D#8, loByte x, hiByte x, loByte y, hiByte y]
  | .home => [0x1E#8]
  | .tab col row => [0x1F#8, col, row]
  | .chr c => [c]
  | .bs => [0x7F#8]

/-- The total length of each command (R91, R97). -/
def Instr.byteLength : Instr → Nat
  | .unk _ => 1
  | .left => 1
  | .right => 1
  | .down => 1
  | .up => 1
  | .cls => 1
  | .cr => 1
  | .clg => 1
  | .colour _ => 2
  | .gcol _ _ => 3
  | .defcol _ _ _ _ _ => 6
  | .mode _ => 2
  | .gpoll _ => 4
  | .keynop => 3
  | .qcursor => 3
  | .audio _ _ _ _ _ => 10
  | .qmode => 3
  | .logical _ => 4
  | .xunkSub _ => 3
  | .xunkSel _ => 2
  | .defglyph _ _ _ _ _ _ _ _ _ => 10
  | .plot _ _ _ => 6
  | .origin _ _ => 5
  | .home => 1
  | .tab _ _ => 3
  | .chr _ => 1
  | .bs => 1

/-- The length of the longest command (R97). -/
def longestInstr : Nat := 10

/-- The bytes of a word numbered as spec/opcode_table.json numbers it: one hex number with byte 0 MOST
significant (R95). Zero bytes above the word's own first byte are dropped, since no row of more
than one byte begins with 0x00. DEDUCED, log entry 1: safe. -/
def tableBytes (nbits w : Nat) : List Byte :=
  let n := nbits / 8
  match ((List.range n).map fun k => BitVec.ofNat 8 (w >>> (8 * (n - 1 - k)))).dropWhile (· == 0#8) with
  | [] => [0#8]
  | bs => bs

/-- The stream a table word stands for: its bytes, then zeros up to the longest command. -/
def tableStream (nbits w : Nat) : List Byte :=
  tableBytes nbits w ++ List.replicate (longestInstr - (tableBytes nbits w).length) 0#8

/-- What the decoder reads from a word of the opcode table (the host's question). -/
def decodeTableWord (nbits w : Nat) : Option Instr :=
  match decode (tableStream nbits w) with
  | .ok (i, _) => some i
  | .error _ => none

end Sys2Proof
end

