-- ==== Sys2Proof/Machine/Memory.lean ====
section
/-! DEFINITION. The framebuffer space (R60–R62): pixels by linear address, in one canonical form. -/

namespace Sys2Proof.Machine

/-- The framebuffer as (address, pixel) pairs. The unit of this space is a 6-bit pixel, not a byte.
Log entry 5. -/
abbrev Memory := List (Nat × Pixel)

/-- What an unlisted address reads as. A representation only: `start()` and every mode switch write
each of the W·H pixels (R40). DESIGN CHOICE, log entry 5. -/
def Memory.blank : Pixel := 0

/-- The pixel at a linear address (`MemRead(addr, 1)`, R14, R60). -/
def Memory.read (m : Memory) (a : Nat) : Pixel :=
  match m with
  | [] => Memory.blank
  | (b, c) :: t => if a = b then c else Memory.read t a

/-- Puts a pair into a list that is sorted by address and does not list that address. -/
def Memory.insert (a : Nat) (c : Pixel) (m : Memory) : Memory :=
  match m with
  | [] => [(a, c)]
  | (b, d) :: t => if a < b then (a, c) :: (b, d) :: t else (b, d) :: Memory.insert a c t

/-- Writes one pixel at a linear address (`MemWrite(addr, 1, c)`, R14, R60). Writing what an unlisted
address reads as leaves the address unlisted. -/
def Memory.write (m : Memory) (a : Nat) (c : Pixel) : Memory :=
  let rest := m.filter fun p => p.1 != a
  if c = Memory.blank then rest else Memory.insert a c rest

/-- `n` addresses from `start` on, all holding `c`. -/
def Memory.band (start n : Nat) (c : Pixel) : Memory :=
  if c = Memory.blank then [] else (List.range n).map fun i => (start + i, c)

/-- A new space of `n` pixels, every one `c` (R40, R150, R181, R251). -/
def Memory.fill (n : Nat) (c : Pixel) : Memory := Memory.band 0 n c

/-- The scroll copy (R178): in a space of `h` rows of `w` pixels every pixel moves up `ov` rows, and the
`ov` rows at the bottom become `c`. The source's ascending copy reads every row before it is
overwritten, so it is a move of the old contents. -/
def Memory.scroll (m : Memory) (w h ov : Nat) (c : Pixel) : Memory :=
  (m.filterMap fun p => if ov * w ≤ p.1 ∧ p.1 < h * w then some (p.1 - ov * w, p.2) else none)
    ++ Memory.band ((h - ov) * w) (ov * w) c

/-- The canonical form of a space of `size` pixels: addresses strictly rising and inside the space, no
pair equal to what an unlisted address reads as. -/
abbrev Memory.wf (size : Nat) (m : Memory) : Prop :=
  m.Pairwise (fun p q => p.1 < q.1) ∧ ∀ p ∈ m, p.1 < size ∧ p.2 ≠ Memory.blank

end Sys2Proof.Machine
end

