-- ==== Sys2Proof/Config.lean ====
section
/-! DEFINITION. What an implementation fixes (the OPEN parameters of R10) and the free values: constants
that no proof can see into. -/

namespace Sys2Proof

/-- The legal colour counts of a mode (R10: each value is in {2, 16, 64}). -/
inductive ColourCount where
  | two
  | sixteen
  | sixtyFour
  deriving DecidableEq, Repr

/-- The number a colour count stands for. -/
def ColourCount.toNat : ColourCount → Nat
  | .two => 2
  | .sixteen => 16
  | .sixtyFour => 64

/-- An entry of ModeTable but for its palette, which `Config.paletteEntry` gives (R24). -/
structure ModeInfo where
  width : Nat
  height : Nat
  colours : ColourCount
  refreshHz : Nat
  deriving DecidableEq, Repr

/-- An entry of the master colour table: 6-bit RGB whose channel layout the source leaves open (R261,
D5; log entry 20). -/
abbrev Colour := BitVec 6

/-- OPEN (D3): the rows of ModeTable other than mode 1's. Log entries 2 and 3. -/
opaque Config.modeRow : Byte → Option ModeInfo

/-- OPEN (D3): the refresh rate of mode 1. Log entries 2 and 3. -/
opaque Config.modeOneRefreshHz : Nat

/-- OPEN (D4): the palette of a mode: the master index at each position. Log entry 2. -/
opaque Config.paletteEntry : Byte → Nat → Pixel

/-- OPEN (D5): the master colour table. Log entry 2. -/
opaque Config.masterTable : Pixel → Colour

/-- OPEN (D35): how a visible cursor is drawn over a presented frame: for a frame of some width and height with
the cursor at some position, the colour shown at column x and row y over the colour of the copy there.
Arguments: width, height, cursor x, cursor y, x, y, that colour. Log entries 2 and 15. -/
opaque Config.cursorShape : Nat → Nat → Int → Int → Nat → Nat → Colour → Colour

/-- OPEN (D6): the default font but for slot 0, which D6 makes blank. Log entry 2. -/
opaque Config.fontBody : Vector Glyph 224

/-- OPEN (D7): the default mode, where it is a key of ModeTable. Log entry 2. -/
opaque Config.startMode : Byte

/-- OPEN (D38): the boot message. Log entries 2 and 7. -/
opaque Config.bootMessage : List Byte

/-- Free value: the time in µs that passes before a tick the environment's schedule does not give
(R280: the clock is an input, and monotone). Log entry 9. -/
opaque Config.freeElapsed : Nat → Nat

/-- Free value: whether a framebuffer allocation for a mode succeeds (D41: `alloc_ok(m)` is a draw).
Log entry 10. -/
opaque Config.freeAlloc : Nat → Byte → Bool

end Sys2Proof
end

