-- ==== Sys2Proof/Machine/Params.lean ====
section
/-! DEFINITION. The parameters whose values the spec fixes or decides (R10). Log entry 19. -/

namespace Sys2Proof.Machine

/-- `FONT_W`: the cell width in pixels (R10). -/
def fontW : Nat := 8

/-- `FONT_H`: the cell height in pixels (R10). -/
def fontH : Nat := 8

/-- `LOGICAL_W` (R10). -/
def logicalW : Nat := 1280

/-- `LOGICAL_H` (R10). -/
def logicalH : Nat := 1024

/-- `CIRCLE_SEGMENTS` (R10). -/
def circleSegments : Nat := 32

/-- `BLINK_HALF_PERIOD_US` (R10). -/
def blinkHalfPeriodUs : Int := 500000

/-- `US_PER_S` (R10). -/
def usPerS : Nat := 1000000

/-- `DEFAULT_FG_INDEX` (R10, D8). -/
def defaultFgIndex : Byte := 15#8

/-- `DEFAULT_BG_INDEX` (R10, D8). -/
def defaultBgIndex : Byte := 0#8

/-- `DEFAULT_GCOL_INDEX` (R10, D8). -/
def defaultGcolIndex : Byte := 15#8

/-- `DEFAULT_LOGICAL` (R10, D9). -/
def defaultLogical : Bool := false

/-- `CMDS_PER_TICK` (R10, D33). -/
def cmdsPerTick : Nat := 1

/-- `BLINK_INITIAL` (R10, D35). -/
def blinkInitial : Bool := false

/-- `SCROLL_ON_RIGHT_WRAP` (R10, D32). -/
def scrollOnRightWrap : Bool := false

/-- `BOOT_SENDS_MODE_REPLY` (R10, D38). -/
def bootSendsModeReply : Bool := false

/-- `KEY_PACKET_CODE` (R10, D39). -/
def keyPacketCode : Byte := 0x01#8

end Sys2Proof.Machine
end

