-- ==== Sys2Proof/Machine/Modes.lean ====
section
/-! DEFINITION. The video-mode table, the palette resolver and the mode-information payload (R24, R155,
R260). -/

namespace Sys2Proof.Machine

/-- An entry made legal: at least one pixel across (R41: 0 ≤ cur_x < W always holds), at least one text row
high (R41: cur_y ≥ 0 always holds, and H ≥ 8) and a positive refresh rate (R10). DEDUCED, log entry 3. -/
def legalEntry (e : ModeInfo) : ModeInfo :=
  { e with width := max 1 e.width, height := max fontH e.height, refreshHz := max 1 e.refreshHz }

/-- Mode 1: 512×384, 16 colours (R10, R24); its refresh rate is OPEN (D3). -/
def modeOne : ModeInfo := ⟨512, 384, .sixteen, max 1 Config.modeOneRefreshHz⟩

/-- `ModeTable` (R10): mode 1 as the source gives it, the other rows OPEN (D3). -/
def modeTable (m : Byte) : Option ModeInfo :=
  if m = 1#8 then some modeOne else (Config.modeRow m).map legalEntry

/-- The entry of an active mode. A mode that is no key of the table, which no run reaches (R24), reads as
mode 1. DESIGN CHOICE, log entry 4. -/
def modeEntry (m : Byte) : ModeInfo := (modeTable m).getD modeOne

/-- `default_mode` (D7): OPEN, a key of ModeTable. -/
def defaultMode : Byte := if (modeTable Config.startMode).isSome then Config.startMode else 1#8

/-- `default_font` (D6): OPEN, with slot 0 all zero. -/
def defaultFont : Vector Glyph 224 := Config.fontBody.set 0 Glyph.blank

/-- `resolve(i)` in mode `m`: palette(m)[i mod colour_count(m)] (R260). -/
def resolve (m i : Byte) : Pixel := Config.paletteEntry m (i.toNat % (modeEntry m).colours.toNat)

/-- `mode_info` (R155), in mode `m`. -/
def modeInfo (m : Byte) : List Byte :=
  let e := modeEntry m
  [BitVec.ofNat 8 (e.width % 256), BitVec.ofNat 8 (e.width / 256),
   BitVec.ofNat 8 (e.height % 256), BitVec.ofNat 8 (e.height / 256),
   BitVec.ofNat 8 (e.width / fontW), BitVec.ofNat 8 (e.height / fontH),
   BitVec.ofNat 8 e.colours.toNat]

end Sys2Proof.Machine
end

