-- ==== Sys2Proof/Machine/State.lean ====
section
/-! DEFINITION. The state record S of the block (R21), the environment's coming moves, and the state right
after reset. -/

namespace Sys2Proof.Machine

/-- The fatal causes (R302). -/
inductive FatalCause where
  /-- `F_IN_DISCONNECT`: a byte is needed on an empty, disconnected `inq` (R65). -/
  | inDisconnect
  /-- `F_OUT_DISCONNECT`: a send with the reply receiver gone (R65). -/
  | outDisconnect
  /-- `F_ALLOC`: the framebuffer of mode `m` could not be allocated (R151). -/
  | alloc (m : Byte)
  deriving DecidableEq, Repr

/-- The diagnostic events: a code and its recorded value (R302, R303). -/
inductive DiagEvent where
  /-- `E_CMD_UNKNOWN`: the reserved first byte. -/
  | cmdUnknown (b : Byte)
  /-- `E_EXT_UNKNOWN` with value (s). -/
  | extUnknownSel (s : Byte)
  /-- `E_EXT_UNKNOWN` with value (0x00, t). -/
  | extUnknownSub (t : Byte)
  /-- `E_PLOT_UNSUPPORTED`: the plot mode byte. -/
  | plotUnsupported (m : Byte)
  /-- `E_MODE_UNKNOWN`: the mode index. -/
  | modeUnknown (m : Byte)
  deriving DecidableEq, Repr

/-- The decoder phase `dec` (R23): `blocked got need` has read `got` of a committed command and needs
`need` further bytes, as far as `got` tells. -/
inductive Phase where
  | idle
  | blocked (got : List Byte) (need : Nat)
  deriving DecidableEq, Repr

/-- The three-entry plot history, most recent first (R28). -/
structure History where
  p1 : Point
  p2 : Point
  p3 : Point
  deriving DecidableEq, Repr

/-- One frame on the presentation port (R285): the pixels row by row, the cursor and its blink phase, and the
picture a renderer shows: the pixels with a visible cursor drawn over them. -/
structure Frame where
  width : Nat
  height : Nat
  pixels : List (List Colour)
  curX : Int
  curY : Int
  blinkOn : Bool
  picture : List (List Colour)
  deriving DecidableEq, Repr

/-- A move of the environment (R311): the host's operations and the CPU peer's acts on the channels. -/
inductive EnvMove where
  /-- The host calls `tick(now)` (R282). -/
  | tick (now : Int)
  /-- The host calls `inject_key(code, down)` (R310). -/
  | injectKey (code : Int) (down : Bool)
  /-- The CPU peer appends bytes to `inq`. -/
  | peerSend (bytes : List Byte)
  /-- The CPU peer takes `n` bytes from the head of `outq`. -/
  | peerTake (n : Nat)
  /-- The CPU peer disconnects the command channel. -/
  | closeIn
  /-- The CPU peer's reply receiver goes away. -/
  | closeOut
  /-- The host calls `start(t0)` again, with the channels the environment supplies (R332, R40). -/
  | start (t0 : Int) (inq : List Byte) (inConnected outConnected : Bool)
  /-- The block runs the next command of a boot message before the moves after this one, so that the CPU
  peer's acts can come between two boot commands (R311, R331). With no boot message left it is nothing.
  Log entry 7. -/
  | bootRuns
  deriving DecidableEq, Repr

/-- The state of the block (R21) and, last, the model's own fields. -/
structure State where
  /-- `mode` (R24). -/
  mode : Byte
  /-- `fb` (R25, R60). -/
  fb : Memory
  /-- `cur_x` (R26). -/
  curX : Int
  /-- `cur_y` (R26). -/
  curY : Int
  /-- `fg` (R27). -/
  fg : Pixel
  /-- `bg` (R27). -/
  bg : Pixel
  /-- `gcol` (R27). -/
  gcol : Pixel
  /-- `hist` (R28). -/
  hist : History
  /-- `origin` (R29). -/
  origin : Point
  /-- `logical` (R30). -/
  logical : Bool
  /-- `glyphs` (R31). -/
  glyphs : Vector Glyph 224
  /-- `last_present_us` (R32). -/
  lastPresentUs : Int
  /-- `last_blink_us` (R32). -/
  lastBlinkUs : Int
  /-- `blink_on` (R32). -/
  blinkOn : Bool
  /-- `dec` (R23). -/
  dec : Phase
  /-- `halted` (R35). -/
  halted : Option FatalCause
  /-- `inq` (R33), oldest byte first. -/
  inq : List Byte
  /-- `in_connected` (R33). -/
  inConnected : Bool
  /-- `outq` (R33), oldest byte first. -/
  outq : List Byte
  /-- `out_connected` (R33). -/
  outConnected : Bool
  /-- `presented` (R33, R285), oldest frame first. -/
  presented : List Frame
  /-- `diag_log` (R33, R303), oldest event first. -/
  diagLog : List DiagEvent
  /-- The part of `boot_message` that `start()` has still to execute (R331). -/
  boot : List Byte
  /-- The model's own: the environment's coming moves, oldest first. Log entry 8. -/
  env : List EnvMove
  /-- The model's own: the clock value of the last tick or start. Log entry 9. -/
  clock : Int
  /-- The model's own: the environment's answers to coming allocations. Log entry 10. -/
  allocAnswers : List Bool
  /-- The model's own: how many free values have been drawn. Log entries 9 and 10. -/
  draws : Nat
  deriving DecidableEq, Repr

/-- No step faults: the spec's fatal errors are states with `halted` set, of which it says what later
ticks do (R306), and geometry out of range is no error (R305). Log entry 16: safe. -/
inductive Fault where
  deriving DecidableEq, Repr

/-- Why a step has no meaning. -/
inductive Refusal where
  /-- Raised by `exec` alone, for an instruction that has no meaning yet. Safe: the run stops. -/
  | notModelled (mnemonic : String)
  /-- Raised by a boot step whose bytes are not a whole command: the model rejects such a boot message
  (R331, K-9). Safe: the run stops. -/
  | bootMessageIncomplete
  deriving DecidableEq, Repr

/-- The outcome of an instruction or a step. -/
abbrev Result := Host.Outcome State Fault Refusal

/-- The state after `start(0)` up to the boot message, with the default mode's framebuffer allocated
(R330, R40). The boot message is still to run. Log entries 2, 6, 7, 8 and 11. -/
def State.reset : State where
  mode := defaultMode
  fb := Memory.fill ((modeEntry defaultMode).width * (modeEntry defaultMode).height)
    (resolve defaultMode defaultBgIndex)
  curX := 0
  curY := 0
  fg := resolve defaultMode defaultFgIndex
  bg := resolve defaultMode defaultBgIndex
  gcol := resolve defaultMode defaultGcolIndex
  hist := ⟨⟨0, 0⟩, ⟨0, 0⟩, ⟨0, 0⟩⟩
  origin := ⟨0, 0⟩
  logical := defaultLogical
  glyphs := defaultFont
  lastPresentUs := 0
  lastBlinkUs := 0
  blinkOn := blinkInitial
  dec := .idle
  halted := none
  inq := []
  inConnected := true
  outq := if bootSendsModeReply then 0x86#8 :: 0x07#8 :: modeInfo defaultMode else []
  outConnected := true
  presented := []
  diagLog := []
  boot := Config.bootMessage
  env := []
  clock := 0
  allocAnswers := []
  draws := 0

end Sys2Proof.Machine
end

