-- ==== Sys2Proof/Machine/Ops.lean ====
section
/-! DEFINITION. The named reads and updates of the state, and the shared operations: pixels, scroll, glyph
store, channels, diagnostics and the fatal stop, allocation and the mode reset. -/

namespace Sys2Proof.Machine

/-! Derived reads (R24, R42). -/

/-- `W(S)` (R24). -/
def State.width (s : State) : Nat := (modeEntry s.mode).width

/-- `H(S)` (R24). -/
def State.height (s : State) : Nat := (modeEntry s.mode).height

/-- `cols(S) = W fdiv 8` (R24). -/
def State.cols (s : State) : Nat := s.width / fontW

/-- `rows(S) = H fdiv 8` (R24). -/
def State.rows (s : State) : Nat := s.height / fontH

/-- `refresh_hz(S)` (R24). -/
def State.refreshHz (s : State) : Nat := (modeEntry s.mode).refreshHz

/-- The pixels of the active mode's framebuffer. -/
def State.fbSize (s : State) : Nat := s.width * s.height

/-! Named updates: one field, or one group of fields that change together. -/

def State.setFb (s : State) (m : Memory) : State := { s with fb := m }

def State.setCursor (s : State) (x y : Int) : State := { s with curX := x, curY := y }

def State.setFg (s : State) (c : Pixel) : State := { s with fg := c }

def State.setBg (s : State) (c : Pixel) : State := { s with bg := c }

def State.setGcol (s : State) (c : Pixel) : State := { s with gcol := c }

def State.setHist (s : State) (h : History) : State := { s with hist := h }

def State.setOrigin (s : State) (p : Point) : State := { s with origin := p }

def State.setLogical (s : State) (b : Bool) : State := { s with logical := b }

def State.setGlyphs (s : State) (g : Vector Glyph 224) : State := { s with glyphs := g }

def State.setHalted (s : State) (c : Option FatalCause) : State := { s with halted := c }

def State.setInq (s : State) (bs : List Byte) (d : Phase) : State := { s with inq := bs, dec := d }

def State.setOutq (s : State) (bs : List Byte) : State := { s with outq := bs }

def State.setDiagLog (s : State) (es : List DiagEvent) : State := { s with diagLog := es }

def State.setPresented (s : State) (fs : List Frame) : State := { s with presented := fs }

def State.setLastPresent (s : State) (t : Int) : State := { s with lastPresentUs := t }

def State.setBlink (s : State) (on : Bool) (t : Int) : State := { s with blinkOn := on, lastBlinkUs := t }

def State.setChannels (s : State) (i o : Bool) : State := { s with inConnected := i, outConnected := o }

def State.setBoot (s : State) (bs : List Byte) : State := { s with boot := bs }

def State.setEnv (s : State) (es : List EnvMove) : State := { s with env := es }

def State.setClock (s : State) (t : Int) : State := { s with clock := t }

def State.setDraws (s : State) (as : List Bool) (n : Nat) : State := { s with allocAnswers := as, draws := n }

/-! The framebuffer (R60, R61). -/

/-- Whether a point is inside a framebuffer of `w` by `h` pixels (R60). -/
def inFrame (w h : Nat) (p : Point) : Bool := 0 ≤ p.x && p.x < w && 0 ≤ p.y && p.y < h

/-- The linear address of a point inside a framebuffer of width `w`: y·W + x (R60). -/
def pixelAddr (w : Nat) (p : Point) : Nat := p.y.toNat * w + p.x.toNat

/-- `SetPixel` on a framebuffer of `w` by `h` pixels: clipped (R60, R61). -/
def setPixel (w h : Nat) (m : Memory) (p : Point) (c : Pixel) : Memory :=
  if inFrame w h p then m.write (pixelAddr w p) c else m

/-- `FbRead(x, y)`, for points inside the framebuffer (R60, R62). -/
def State.fbRead (s : State) (p : Point) : Pixel := s.fb.read (pixelAddr s.width p)

/-- `SetPixel` at each point in turn, each with its own colour (R60). -/
def State.paint (s : State) (ps : List (Point × Pixel)) : State :=
  s.setFb (ps.foldl (fun m q => setPixel s.width s.height m q.1 q.2) s.fb)

/-- `SetPixel` at each point in turn, in one colour. -/
def State.draw (s : State) (ps : List Point) (c : Pixel) : State := s.paint (ps.map fun p => (p, c))

/-- Every pixel becomes `bg` (R181, R251). -/
def State.clearFb (s : State) : State := s.setFb (Memory.fill s.fbSize s.bg)

/-- `scroll_check()` (R178): scroll by the overflow of the cursor cell's bottom edge, in pixels. -/
def State.scrollCheck (s : State) : State :=
  let ov : Int := s.curY + fontH - s.height
  if ov ≤ 0 then s
  else
    (s.setFb (if ov < s.height then s.fb.scroll s.width s.height ov.toNat s.bg
        else Memory.fill s.fbSize s.bg)).setCursor s.curX (s.curY - ov)

/-! The glyph store (R63). -/

/-- The slot of a character code c ≥ 32: c − 32 (R63). -/
def slotOf (c : Byte) : Fin 224 := ⟨c.toNat - 32, by have := c.isLt; omega⟩

/-- `GlyphRead(s)` (R63). -/
def State.glyphRead (s : State) (slot : Fin 224) : Glyph := s.glyphs[slot]

/-- `GlyphWrite(s, b)` (R63). -/
def State.glyphWrite (s : State) (slot : Fin 224) (g : Glyph) : State := s.setGlyphs (s.glyphs.set slot g)

/-! The plot history (R34). -/

/-- `push(q)`: the oldest point is dropped (R34). -/
def State.push (s : State) (q : Point) : State := s.setHist ⟨q, s.hist.p1, s.hist.p2⟩

/-! Errors (R303, R306): the block's whole exception mechanism. -/

/-- `raise Diag(code, v)`: the event is appended to `diag_log`, and nothing else (R303). -/
def State.raiseDiag (s : State) (e : DiagEvent) : State := s.setDiagLog (s.diagLog ++ [e])

/-- `raise Fatal(cause)`: the block stops for good (R306, R35). -/
def State.raiseFatal (s : State) (c : FatalCause) : State := s.setHalted (some c)

/-! The reply channel (R65, R101). -/

/-- `Send(b)` for each byte in turn; the first send on a channel whose receiver is gone stops the block,
and nothing more is sent (R65, R306). -/
def State.sendAll (s : State) (bs : List Byte) : State :=
  match bs with
  | [] => s
  | b :: r => if s.outConnected then (s.setOutq (s.outq ++ [b])).sendAll r else s.raiseFatal .outDisconnect

/-- `SendPacket(code, payload)`: code | 0x80, the payload's length, the payload (R101). -/
def State.sendPacket (s : State) (code : Byte) (payload : List Byte) : State :=
  s.sendAll ((code ||| 0x80#8) :: BitVec.ofNat 8 payload.length :: payload)

/-! Allocation and the reset that a mode switch and `start()` share (R150, R330). -/

/-- The draw `alloc_ok(m)` (D41): the environment's next answer where State holds one, else a free value.
Log entry 10. -/
def State.allocOk (s : State) (m : Byte) : Bool :=
  match s.allocAnswers with
  | a :: _ => a
  | [] => Config.freeAlloc s.draws m

/-- The state after the draw was taken. -/
def State.afterAlloc (s : State) : State :=
  match s.allocAnswers with
  | _ :: r => s.setDraws r s.draws
  | [] => s.setDraws [] (s.draws + 1)

/-- The fields a mode switch writes, all but the reply (R150, R40). -/
def State.modeReset (s : State) (m : Byte) : State :=
  { s with
    mode := m
    fg := resolve m defaultFgIndex
    bg := resolve m defaultBgIndex
    gcol := resolve m defaultGcolIndex
    fb := Memory.fill ((modeEntry m).width * (modeEntry m).height) (resolve m defaultBgIndex)
    curX := 0
    curY := 0
    hist := ⟨⟨0, 0⟩, ⟨0, 0⟩, ⟨0, 0⟩⟩
    origin := ⟨0, 0⟩
    logical := defaultLogical }

end Sys2Proof.Machine
end

