-- ==== Sys2Proof/Machine/Colours.lean ====
section
/-! DEFINITION. The colour commands: COLOUR, GCOL, DEFCOL (R260–R266). -/

namespace Sys2Proof.Machine

/-- `COLOUR c` (R262): c < 128 selects `fg`, c ≥ 128 selects `bg`; c itself is resolved. -/
def execColour (c : Byte) (s : State) : Result :=
  .next (if c.toNat < 128 then s.setFg (resolve s.mode c) else s.setBg (resolve s.mode c))

/-- `GCOL m, c` (R263): the mode byte is read and ignored (D20). -/
def execGcol (_m c : Byte) (s : State) : Result := .next (s.setGcol (resolve s.mode c))

/-- `DEFCOL s, p, r, g, b` (R264): accepted, not mapped to the palette. -/
def execDefcol (_slot _physical _r _g _b : Byte) (s : State) : Result := .next s

end Sys2Proof.Machine
end

