-- ==== Sys2Proof/Machine/Geometry.lean ====
section
/-! DEFINITION. The pixels of lines and filled triangles (R232, R236, R238). -/

namespace Sys2Proof.Machine

/-- The walk of R232 with end (x1, y1), deltas dx, dy, signs sx, sy, from (x, y) with error `err`. The
first argument bounds the steps; `linePoints` gives it the number of positions of R233 (a). -/
def lineWalk (x1 y1 dx dy sx sy : Int) : Nat → Int → Int → Int → List Point
  | 0, _, _, _ => []
  | n + 1, x, y, err =>
    ⟨x, y⟩ ::
      if x = x1 ∧ y = y1 then []
      else
        let e2 := 2 * err
        let stepX := e2 ≥ dy
        let stepY := e2 ≤ dx
        lineWalk x1 y1 dx dy sx sy n
          (if stepX then x + sx else x)
          (if stepY then y + sy else y)
          (err + (if stepX then dy else 0) + (if stepY then dx else 0))

/-- The positions of `draw_line(a, b)`, in the order they are visited (R232). -/
def linePoints (a b : Point) : List Point :=
  let dx : Int := (b.x - a.x).natAbs
  let dy : Int := -((b.y - a.y).natAbs : Int)
  let sx : Int := if a.x < b.x then 1 else -1
  let sy : Int := if a.y < b.y then 1 else -1
  lineWalk b.x b.y dx dy sx sy (max (b.x - a.x).natAbs (b.y - a.y).natAbs + 1) a.x a.y (dx + dy)

/-- The edge walk `xs(A, B)`: one x for each scanline from A.y to B.y (R236). -/
def edgeXs (a b : Point) : List Int :=
  let d := (b.y - a.y).natAbs
  let w := (b.x - a.x).natAbs
  if d = 0 then [a.x]
  else (List.range (d + 1)).map fun i => a.x + (b.x - a.x).sign * (((2 * i * w + d) / (2 * d) : Nat) : Int)

/-- `hline(xl, xr, y)`: the pixels from xl to xr, both included (R238). -/
def hlinePoints (xl xr y : Int) : List Point :=
  (List.range (xr + 1 - xl).toNat).map fun (i : Nat) => ⟨xl + i, y⟩

/-- The order of the triangle's sort: by y, then x (R238, D15). -/
def pointLe (p q : Point) : Bool := p.y < q.y || (p.y == q.y && p.x ≤ q.x)

/-- Three points sorted into top, mid, bottom (R238). -/
def sort3 (p q r : Point) : Point × Point × Point :=
  let (a, b) := if pointLe p q then (p, q) else (q, p)
  if pointLe b r then (a, b, r)
  else if pointLe a r then (a, r, b)
  else (r, a, b)

/-- The spans of a list of left and right ends, from scanline `y` down (R238). -/
def spanPoints (y : Int) : List (Int × Int) → List Point
  | [] => []
  | (l, r) :: rest => hlinePoints (min l r) (max l r) y ++ spanPoints (y + 1) rest

/-- The pixels of `fill_triangle(p1, p2, p3)` (R238). The scanline of the middle point is taken from the
second short edge (D15). -/
def trianglePoints (p1 p2 p3 : Point) : List Point :=
  let (t, m, b) := sort3 p1 p2 p3
  if t.y = b.y then hlinePoints (min t.x (min m.x b.x)) (max t.x (max m.x b.x)) t.y
  else spanPoints t.y ((edgeXs t b).zip ((edgeXs t m).dropLast ++ edgeXs m b))

end Sys2Proof.Machine
end

