-- ==== Sys2Proof/Machine/Circle.lean ====
section
/-! DEFINITION. The 32-segment circle (R242–R245), with its real-valued vertices rounded exactly by integer
tests. -/

namespace Sys2Proof.Machine

/-- For N ≥ 1: whether N ≤ √n · cos(kπ/16) + 1/2, for k = 0..8, decided in integers. Squaring twice,
2N − 1 ≤ 2√n·cos(kπ/16) says a ≤ 2n·cos(kπ/8) for a = (2N − 1)² − 2n, and 2·cos(kπ/8) is
±√(2 ± √2), ±√2, ±2 or 0. DEDUCED, log entry 14: safe. -/
def roundsUpTo (n k N : Nat) : Bool :=
  let a : Int := (2 * N - 1) * (2 * N - 1) - 2 * n
  let b : Int := a * a - 2 * (n * n)
  let n2 : Int := 2 * (n * n)
  let n4 : Int := n2 * (n * n)
  match k with
  | 0 => a ≤ 2 * n
  | 1 => a ≤ 0 || b ≤ 0 || b * b ≤ n4
  | 2 => a ≤ 0 || a * a ≤ n2
  | 3 => a ≤ 0 || (b ≤ 0 && n4 ≤ b * b)
  | 4 => a ≤ 0
  | 5 => a ≤ 0 && (0 ≤ b || b * b ≤ n4)
  | 6 => a ≤ 0 && n2 ≤ a * a
  | 7 => a ≤ 0 && 0 ≤ b && n4 ≤ b * b
  | _ => false

/-- The largest N of `bits` binary digits above `acc` that a downward-closed test accepts. -/
def largest (test : Nat → Bool) : Nat → Nat → Nat
  | 0, acc => acc
  | bits + 1, acc => largest test bits (if test (acc + 2 ^ bits) then acc + 2 ^ bits else acc)

/-- rnd(√n · cos(kπ/16)) for k = 0..8: floor(√n · cos(kπ/16) + 1/2) (R242). -/
def roundedCos (n k : Nat) : Nat := largest (roundsUpTo n k) (n.log2 + 1) 0

/-- rnd(√n · cos(2πk/32)) for k = 0..31, by the symmetries of R244; rnd is odd (R242). -/
def cosOffset (n k : Nat) : Int :=
  if k ≤ 8 then roundedCos n k
  else if k ≤ 16 then -roundedCos n (16 - k)
  else if k ≤ 24 then -roundedCos n (k - 16)
  else roundedCos n (32 - k)

/-- rnd(√n · sin(2πk/32)): the cosine a quarter turn earlier. -/
def sinOffset (n k : Nat) : Int := cosOffset n ((k + 24) % 32)

/-- Vertex v[k] of the circle with centre `c` and squared radius `n` (R242). -/
def circleVertex (c : Point) (n k : Nat) : Point := ⟨c.x + cosOffset n k, c.y + sinOffset n k⟩

/-- The pixels of `circle(c, √n)`: the 32 segments, the last closing the loop (R242). -/
def circlePoints (c : Point) (n : Nat) : List Point :=
  (List.range circleSegments).flatMap fun k =>
    linePoints (circleVertex c n k) (circleVertex c n ((k + 1) % circleSegments))

/-- The square of `dist(p, q)` (R243). -/
def distSq (p q : Point) : Nat := ((p.x - q.x) * (p.x - q.x) + (p.y - q.y) * (p.y - q.y)).toNat

end Sys2Proof.Machine
end

