-- ==== Sys2Proof/Machine/Operands.lean ====
section
/-! DEFINITION. Operand values: i16 fields, the plot classes, the coordinate transform (R92–R94, R211–R213). -/

namespace Sys2Proof.Machine

/-- The value of an i16 field: two's complement, in [−32768, 32767] (R92). -/
def i16 (w : Word16) : Int := if w.toNat < 32768 then w.toNat else (w.toNat : Int) - 65536

/-- The classes of plot mode bytes (R94). -/
inductive PlotClass where
  | move
  | line
  | dot
  | triangle
  | circleRel
  | circleAbs
  | unsupported
  deriving DecidableEq, Repr

/-- `plot_class`: the default table of R94, by the fields grp = m[7:3], abs = m[2], op = m[1:0] (D10). -/
def plotClass (m : Byte) : PlotClass :=
  let grp := m.toNat / 8
  let abs := m.toNat / 4 % 2
  let op := m.toNat % 4
  if grp = 0 ∨ grp = 8 ∨ grp = 10 ∨ grp = 18 then
    if op = 0 then .move
    else if grp = 0 then .line
    else if grp = 8 then .dot
    else if grp = 10 then .triangle
    else if abs = 0 then .circleRel
    else .circleAbs
  else .unsupported

/-- `scale(p)` (R211): multiply first, then divide truncating toward zero (D18). -/
def State.scale (s : State) (p : Point) : Point :=
  if s.logical then ⟨(p.x * s.width).tdiv logicalW, (p.y * s.height).tdiv logicalH⟩ else p

/-- `translate(p)` (R212): in logical mode y is flipped about H, as the source writes it (K-4). -/
def State.translate (s : State) (p : Point) : Point :=
  if s.logical then ⟨p.x + s.origin.x, s.height - p.y - s.origin.y⟩
  else ⟨p.x + s.origin.x, p.y + s.origin.y⟩

/-- `T(x, y) = translate(scale(x, y))` (R213). -/
def State.transform (s : State) (p : Point) : Point := s.translate (s.scale p)

/-- The point of two i16 operands (R210). -/
def operandPoint (x y : Word16) : Point := ⟨i16 x, i16 y⟩

/-- The glyph of eight row operands, top row first (R149). -/
def operandGlyph (r0 r1 r2 r3 r4 r5 r6 r7 : Byte) : Glyph := #v[r0, r1, r2, r3, r4, r5, r6, r7]

end Sys2Proof.Machine
end

