-- ==== Sys2Proof/Machine/Graphics.lean ====
section
/-! DEFINITION. The rasterizer: PLOT and its classes, ORIGIN, CLG (R210–R251). -/

namespace Sys2Proof.Machine

/-- What a plot class draws, after the push (R220–R226). -/
def State.plotDraw (s : State) (m : Byte) : State :=
  match plotClass m with
  | .move => s
  | .line => s.draw (linePoints s.hist.p2 s.hist.p1) s.gcol
  | .dot => s.draw [s.hist.p1] s.gcol
  | .triangle => s.draw (trianglePoints s.hist.p1 s.hist.p2 s.hist.p3) s.gcol
  | .circleRel => s.draw (circlePoints s.hist.p2 (distSq s.hist.p1 (s.transform ⟨0, 0⟩))) s.gcol
  | .circleAbs => s.draw (circlePoints s.hist.p2 (distSq s.hist.p1 s.hist.p2)) s.gcol
  | .unsupported => s.raiseDiag (.plotUnsupported m)

/-- `PLOT m, x, y` (R220): the point is pushed first, for every class (D12). -/
def execPlot (m : Byte) (x y : Word16) (s : State) : Result :=
  .next ((s.push (s.transform (operandPoint x y))).plotDraw m)

/-- `ORIGIN x, y` (R250): stored as received (D19). -/
def execOrigin (x y : Word16) (s : State) : Result := .next (s.setOrigin (operandPoint x y))

/-- `CLG` (R251). -/
def execClg (s : State) : Result := .next s.clearFb

end Sys2Proof.Machine
end

