-- ==== Sys2Proof/Machine/Flags.lean ====
section
/-! DEFINITION. The block has no condition codes; its one flag is `logical` (R30). -/

namespace Sys2Proof.Machine

/-- The truth value of the argument of 0x17 0x00 0xC0: any nonzero byte sets the flag (R146, D29). -/
def flagOfByte (b : Byte) : Bool := b != 0x00#8

/-- Writes `logical` from an argument byte (R146). -/
def State.writeLogical (s : State) (b : Byte) : State := s.setLogical (flagOfByte b)

end Sys2Proof.Machine
end

