-- ==== Sys2Proof/Machine/Interpreter.lean ====
section
/-! DEFINITION. The interpreter's own commands: UNK, the extended commands and MODE (R133–R155). -/

namespace Sys2Proof.Machine

/-- `UNK b` (R133). -/
def execUnk (b : Byte) (s : State) : Result := .next (s.raiseDiag (.cmdUnknown b))

/-- `GPOLL b` (R141): reply code 0x00. -/
def execGpoll (b : Byte) (s : State) : Result := .next (s.sendPacket 0x00#8 [b])

/-- `KEYNOP` (R142). -/
def execKeynop (s : State) : Result := .next s

/-- A cursor coordinate's cell number in one byte: (v fdiv 8) mod 256 (R143, D43). -/
def cellByte (v : Int) : Byte := BitVec.ofInt 8 (v.fdiv 8)

/-- `QCURSOR` (R143): reply code 0x02. -/
def execQcursor (s : State) : Result := .next (s.sendPacket 0x02#8 [cellByte s.curX, cellByte s.curY])

/-- `AUDIO ch, wf, vol, freq, dur` (R144): the bytes are discarded. -/
def execAudio (_ch _wf _vol : Byte) (_freq _dur : Word16) (s : State) : Result := .next s

/-- `QMODE` (R145): reply code 0x06. -/
def execQmode (s : State) : Result := .next (s.sendPacket 0x06#8 (modeInfo s.mode))

/-- `LOGICAL b` (R146). -/
def execLogical (b : Byte) (s : State) : Result := .next (s.writeLogical b)

/-- `XUNK 0, t` (R147). -/
def execXunkSub (t : Byte) (s : State) : Result := .next (s.raiseDiag (.extUnknownSub t))

/-- `XUNK s` (R148). -/
def execXunkSel (sel : Byte) (s : State) : Result := .next (s.raiseDiag (.extUnknownSel sel))

/-- `DEFGLYPH c, r0..r7` (R149). -/
def execDefglyph (c r0 r1 r2 r3 r4 r5 r6 r7 : Byte) (s : State) : Result :=
  .next (s.glyphWrite (slotOf c) (operandGlyph r0 r1 r2 r3 r4 r5 r6 r7))

/-- `MODE m` (R150): an unknown index is a diagnostic (R152); a failed allocation stops the block before
any field changes (R151); otherwise the reset, then the reply (R155). -/
def execMode (m : Byte) (s : State) : Result :=
  .next (if (modeTable m).isNone then s.raiseDiag (.modeUnknown m)
    else if s.allocOk m then (s.afterAlloc.modeReset m).sendPacket 0x06#8 (modeInfo m)
    else s.afterAlloc.raiseFatal (.alloc m))

end Sys2Proof.Machine
end

