-- ==== Sys2Proof/Machine/TextGlyph.lean ====
section
/-! DEFINITION. The glyph renderer and the text cursor: LEFT, RIGHT, DOWN, UP, CLS, CR, HOME, TAB, CHR, BS
(R170–R185). -/

namespace Sys2Proof.Machine

/-- The bit of a bitmap at row `r`, column `c`: bit 7 of a row byte is the leftmost pixel (R170, D30). -/
def glyphBit (g : Glyph) (r c : Nat) : Bool := ((g.toList.getD r 0#8)).getLsbD (7 - c)

/-- The 64 pixels of a cell at (x, y), row by row, with their colours (R170). -/
def cellPixels (g : Glyph) (x y : Int) (fg bg : Pixel) : List (Point × Pixel) :=
  (List.range fontH).flatMap fun (r : Nat) =>
    (List.range fontW).map fun (c : Nat) => (⟨x + c, y + r⟩, if glyphBit g r c then fg else bg)

/-- `render_glyph(bm)` at the cursor (R170, R171). -/
def State.renderGlyph (s : State) (g : Glyph) : State := s.paint (cellPixels g s.curX s.curY s.fg s.bg)

/-- `right()` (R175). -/
def State.cursorRight (s : State) : State :=
  if s.curX + fontW ≥ s.width then s.setCursor 0 (s.curY + fontH) else s.setCursor (s.curX + fontW) s.curY

/-- `left()` (R174). -/
def State.cursorLeft (s : State) : State := s.setCursor (max 0 (s.curX - fontW)) s.curY

/-- `LEFT` (R174). -/
def execLeft (s : State) : Result := .next s.cursorLeft

/-- `RIGHT` (R175, D32). -/
def execRight (s : State) : Result :=
  .next (if scrollOnRightWrap then s.cursorRight.scrollCheck else s.cursorRight)

/-- `DOWN` (R177). -/
def execDown (s : State) : Result := .next (s.setCursor s.curX (s.curY + fontH)).scrollCheck

/-- `UP` (R173). -/
def execUp (s : State) : Result := .next (s.setCursor s.curX (max 0 (s.curY - fontH)))

/-- `CLS` (R181). -/
def execCls (s : State) : Result := .next (s.clearFb.setCursor 0 0)

/-- `CR` (R179). -/
def execCr (s : State) : Result := .next (s.setCursor 0 s.curY)

/-- `HOME` (R180). -/
def execHome (s : State) : Result := .next (s.setCursor 0 0)

/-- `TAB col, row` (R182): out of range, nothing happens (D23). -/
def execTab (col row : Byte) (s : State) : Result :=
  .next (if col.toNat < s.cols ∧ row.toNat < s.rows then
    s.setCursor (col.toNat * fontW : Nat) (row.toNat * fontH : Nat) else s)

/-- `CHR c` (R176): render, advance, scroll check. -/
def execChr (c : Byte) (s : State) : Result :=
  .next (s.renderGlyph (s.glyphRead (slotOf c))).cursorRight.scrollCheck

/-- `BS` (R183). -/
def execBs (s : State) : Result := .next (s.cursorLeft.renderGlyph Glyph.blank)

end Sys2Proof.Machine
end

