-- ==== Sys2Proof/Machine/Dispatch.lean ====
section
/-! DEFINITION. Dispatch (R132): one arm for each command. -/

namespace Sys2Proof.Machine

/-- `exec(cmd)` (R132). -/
def exec (i : Instr) (s : State) : Host.Outcome State Fault Refusal :=
  match i with
  | .unk b => Sys2Proof.Machine.execUnk b s
  | .left => Sys2Proof.Machine.execLeft s
  | .right => Sys2Proof.Machine.execRight s
  | .down => Sys2Proof.Machine.execDown s
  | .up => Sys2Proof.Machine.execUp s
  | .cls => Sys2Proof.Machine.execCls s
  | .cr => Sys2Proof.Machine.execCr s
  | .clg => Sys2Proof.Machine.execClg s
  | .colour c => Sys2Proof.Machine.execColour c s
  | .gcol m c => Sys2Proof.Machine.execGcol m c s
  | .defcol slot p r g b => Sys2Proof.Machine.execDefcol slot p r g b s
  | .mode m => Sys2Proof.Machine.execMode m s
  | .gpoll b => Sys2Proof.Machine.execGpoll b s
  | .keynop => Sys2Proof.Machine.execKeynop s
  | .qcursor => Sys2Proof.Machine.execQcursor s
  | .audio ch wf vol freq dur => Sys2Proof.Machine.execAudio ch wf vol freq dur s
  | .qmode => Sys2Proof.Machine.execQmode s
  | .logical b => Sys2Proof.Machine.execLogical b s
  | .xunkSub t => Sys2Proof.Machine.execXunkSub t s
  | .xunkSel sel => Sys2Proof.Machine.execXunkSel sel s
  | .defglyph c r0 r1 r2 r3 r4 r5 r6 r7 => Sys2Proof.Machine.execDefglyph c r0 r1 r2 r3 r4 r5 r6 r7 s
  | .plot m x y => Sys2Proof.Machine.execPlot m x y s
  | .origin x y => Sys2Proof.Machine.execOrigin x y s
  | .home => Sys2Proof.Machine.execHome s
  | .tab col row => Sys2Proof.Machine.execTab col row s
  | .chr c => Sys2Proof.Machine.execChr c s
  | .bs => Sys2Proof.Machine.execBs s

end Sys2Proof.Machine
end

