-- ==== Sys2Proof/Machine/FramePacer.lean ====
section
/-! DEFINITION. The frame pacer: interval, blink, presentation (R280–R287). -/

namespace Sys2Proof.Machine

/-- `interval_us(S) = 1_000_000 fdiv refresh_hz` (R281). -/
def State.intervalUs (s : State) : Int := (usPerS / s.refreshHz : Nat)

/-- `blink_update(now)` (R284). -/
def State.blinkUpdate (s : State) (now : Int) : State :=
  if now - s.lastBlinkUs ≥ blinkHalfPeriodUs then s.setBlink (!s.blinkOn) now else s

/-- The rows of a frame, each pixel's colour given by its column and row. -/
def State.rowsOf (s : State) (colour : Nat → Nat → Colour) : List (List Colour) :=
  (List.range s.height).map fun y => (List.range s.width).map fun x => colour x y

/-- The colour of a framebuffer pixel: its entry of the master table (R285). -/
def State.colourAt (s : State) (x y : Nat) : Colour := Config.masterTable (s.fbRead ⟨x, y⟩)

/-- The colour a renderer shows at a pixel: a visible cursor is drawn over the copy (R285, D35). The cursor's
shape is OPEN; log entry 15. -/
def State.shownAt (s : State) (x y : Nat) : Colour :=
  if s.blinkOn then Config.cursorShape s.width s.height s.curX s.curY x y (s.colourAt x y) else s.colourAt x y

/-- The frame of a presentation: the framebuffer through the master table, row by row, with the cursor, its
blink phase and the picture shown (R285). -/
def State.frame (s : State) : Frame where
  width := s.width
  height := s.height
  pixels := s.rowsOf s.colourAt
  curX := s.curX
  curY := s.curY
  blinkOn := s.blinkOn
  picture := s.rowsOf s.shownAt

/-- `present()` (R285). -/
def State.present (s : State) : State := s.setPresented (s.presented ++ [s.frame])

/-- `pacer_check(now)` (R283). -/
def State.pacerCheck (s : State) (now : Int) : State :=
  if now - s.lastPresentUs ≥ s.intervalUs then (s.blinkUpdate now).present.setLastPresent now else s

end Sys2Proof.Machine
end

