-- ==== Sys2Proof/Machine/Tick.lean ====
section
/-! DEFINITION. The interpreter pass, the tick, the host's other operations and the environment's moves
(R130, R131, R282, R310, R311, R330, R331). -/

namespace Sys2Proof.Machine

/-- The bytes of a committed command read so far (R23). -/
def Phase.got : Phase → List Byte
  | .idle => []
  | .blocked got _ => got

/-- Goes on after an outcome that is a next state. -/
def andThen (r : Result) (k : State → Result) : Result :=
  match r with
  | .next s => k s
  | .fault f => .fault f
  | .refused f => .refused f

/-- A committed command whose bytes are not all there: every byte that has come is read, and the block waits
for the next one (R131), or stops if none can come (R65). Log entry 12. -/
def State.block (s : State) (got : List Byte) : State :=
  let t := s.setInq [] (.blocked got (needed got))
  if s.inConnected then t else t.raiseFatal .inDisconnect

/-- `pass()` and `resume()` with a budget of commands (R130, R131, R282): poll or go on with the committed
command; read its bytes; execute it. The command's bytes are those read before and those on `inq`. -/
def pass : Nat → State → Result
  | 0, s => .next s
  | n + 1, s =>
    match s.halted with
    | some _ => .next s
    | none =>
      match decode (s.dec.got ++ s.inq) with
      | .error .noFirstByte => .next s
      | .error (.truncated _) => .next (s.block (s.dec.got ++ s.inq))
      | .ok (i, rest) => andThen (exec i (s.setInq rest .idle)) (pass n)

/-- The pacer's half of a tick: it runs when no command is waiting for bytes (R282, R287) and the block has
not stopped (R306; log entry 17). -/
def State.pacerHalf (s : State) (now : Int) : State :=
  if s.dec = .idle ∧ s.halted = none then s.pacerCheck now else s

/-- `tick(now)` (R282). -/
def tick (now : Int) (s : State) : Result :=
  match s.halted with
  | some _ => .next (s.setClock now)
  | none => andThen (pass cmdsPerTick (s.setClock now)) fun t => .next (t.pacerHalf now)

/-- A tick at a time the environment's schedule does not give: a free value not before the last one
(R280). Log entry 9. -/
def freeTick (s : State) : Result :=
  tick (s.clock + Config.freeElapsed s.draws) (s.setDraws s.allocAnswers (s.draws + 1))

/-- `inject_key(code, down)` (R310). -/
def State.injectKey (s : State) (code : Int) (down : Bool) : State :=
  match s.halted with
  | some _ => s
  | none =>
    s.sendAll [0x80#8 ||| keyPacketCode, 0x04#8, BitVec.ofInt 8 code, 0x00#8, 0x00#8,
      if down then 0x01#8 else 0x00#8]

/-- The fields `start(t0)` sets before it allocates the framebuffer (R330), on the channels that the
environment supplies (R40; log entry 18), with nothing left of an earlier boot message. -/
def State.startClean (s : State) (t0 : Int) (inq : List Byte) (inC outC : Bool) : State :=
  { s with
    halted := none
    dec := .idle
    diagLog := []
    presented := []
    glyphs := defaultFont
    inq := inq
    outq := []
    inConnected := inC
    outConnected := outC
    boot := []
    clock := t0 }

/-- `start(t0)` up to the boot message, whose commands are then the next steps (R330, R331). -/
def State.start (s : State) (t0 : Int) (inq : List Byte) (inC outC : Bool) : State :=
  let s0 := s.startClean t0 inq inC outC
  if s0.allocOk defaultMode then
    let s1 := { s0.afterAlloc.modeReset defaultMode with
      lastPresentUs := t0
      lastBlinkUs := t0
      blinkOn := blinkInitial
      boot := Config.bootMessage }
    if bootSendsModeReply then s1.sendPacket 0x06#8 (modeInfo defaultMode) else s1
  else s0.afterAlloc.raiseFatal (.alloc defaultMode)

/-- One command of the boot message (R331). A boot message that is not whole commands is refused (K-9). -/
def bootStep (s : State) : Result :=
  match decode s.boot with
  | .ok (i, rest) => exec i (s.setBoot rest)
  | .error _ => .refused .bootMessageIncomplete

/-- A move of the environment (R311). A peer that has disconnected sends nothing more. Log entries 8
and 13. -/
def envMove (e : EnvMove) (s : State) : Result :=
  match e with
  | .tick now => tick now s
  | .injectKey code down => .next (s.injectKey code down)
  | .peerSend bytes => .next (if s.inConnected then s.setInq (s.inq ++ bytes) s.dec else s)
  | .peerTake n => .next (s.setOutq (s.outq.drop n))
  | .closeIn => .next (s.setChannels false s.outConnected)
  | .closeOut => .next (s.setChannels s.inConnected false)
  | .start t0 inq inC outC => .next (s.start t0 inq inC outC)
  | .bootRuns => .next s

/-- The next step while a boot message has commands left. The CPU peer's acts come when they are scheduled
(R311); the host's calls wait until `start()` has ended (R330). Log entry 7. -/
def bootAdvance (s : State) : Result :=
  match s.env with
  | [] => bootStep s
  | e :: rest =>
    match e with
    | .peerSend _ => envMove e (s.setEnv rest)
    | .peerTake _ => envMove e (s.setEnv rest)
    | .closeIn => envMove e (s.setEnv rest)
    | .closeOut => envMove e (s.setEnv rest)
    | .bootRuns => bootStep (s.setEnv rest)
    | .tick _ => bootStep s
    | .injectKey _ _ => bootStep s
    | .start _ _ _ _ => bootStep s

/-- The next step: a running block first ends `start()` by executing its boot message (R331), between whose
commands the CPU peer may act; then the environment makes its next move, which is a tick where the schedule
is empty. -/
def advance (s : State) : Result :=
  match s.halted, s.boot with
  | none, _ :: _ => bootAdvance s
  | _, _ =>
    match s.env with
    | [] => freeTick s
    | e :: rest => envMove e (s.setEnv rest)

end Sys2Proof.Machine
end

