-- ==== Sys2Proof/Machine/Step.lean ====
section
/-! DEFINITION. One step of the block, and the state in which the very next step runs a given command. -/

namespace Sys2Proof.Machine

/-- One step: a command of a pending boot message, or one move of the environment (most often a tick). -/
def step : State → Host.Outcome State Fault Refusal := advance

/-- `s` with a word of the opcode table, and zeros after it up to the longest command, at the head of the
command stream, and a tick at the present time as the environment's next move. The block is running and
idle and its boot message is done, so the next step runs that command (log entry 7). -/
def State.withFetchWord (s : State) (nbits w : Nat) : State :=
  { s with
    inq := tableStream nbits w ++ s.inq
    dec := .idle
    halted := none
    boot := []
    env := .tick s.clock :: s.env }

end Sys2Proof.Machine
end

