-- ==== Sys2Proof/Safety.lean ====
section
/-! DEFINITION. What a sound state is, in the terms the claims use, and the spec's own second descriptions
that claims compare the model with. -/

namespace Sys2Proof.Machine

/-- `mode` is a key of ModeTable (R24). -/
abbrev State.ModeKnown (s : State) : Prop := (modeTable s.mode).isSome = true

/-- The framebuffer holds W·H pixels, in canonical form (R25, R60). -/
abbrev State.FbCanonical (s : State) : Prop := Memory.wf s.fbSize s.fb

/-- The guarantees of R41 about the cursor between commands: 0 ≤ cur_x < W and cur_y ≥ 0. -/
abbrev State.CursorSound (s : State) : Prop := 0 ≤ s.curX ∧ s.curX < s.width ∧ 0 ≤ s.curY

/-- The graphics origin's coordinates are i16 values (R29). -/
abbrev State.OriginSound (s : State) : Prop :=
  -32768 ≤ s.origin.x ∧ s.origin.x ≤ 32767 ∧ -32768 ≤ s.origin.y ∧ s.origin.y ≤ 32767

/-- `dec` is Blocked only with a committed command whose bytes are not all there, and `need` is what R97
says of its prefix (R23). -/
abbrev State.DecoderSound (s : State) : Prop :=
  match s.dec with
  | .idle => True
  | .blocked got need => got ≠ [] ∧ 0 < need ∧ got.length + need = knownLength got

/-- Whether a step can come to a linear address of the framebuffer by drawing a list of points: some point
inside the framebuffer has that address (R60, R61). -/
abbrev State.Hits (s : State) (ps : List Point) (a : Nat) : Prop :=
  ∃ p ∈ ps, inFrame s.width s.height p = true ∧ pixelAddr s.width p = a

/-- The cell whose top-left corner is (x, y) (R170). -/
abbrev inCell (x y : Int) (p : Point) : Prop := x ≤ p.x ∧ p.x < x + 8 ∧ y ≤ p.y ∧ p.y < y + 8

/-- What R170 makes of a pixel when bitmap `g` is rendered at the cursor: inside the cell, bit 7 − column of
its row byte chooses between `fg` and `bg`; outside it, nothing. -/
def State.rendered (s : State) (g : Glyph) (p : Point) : Pixel :=
  if inCell s.curX s.curY p then
    if (g.toList.getD (p.y - s.curY).toNat 0#8).getLsbD (7 - (p.x - s.curX).toNat) then s.fg else s.bg
  else s.fbRead p

/-- The column and row after `right()` (R175). -/
def State.nextCell (s : State) : Int × Int :=
  if s.curX + 8 ≥ s.width then (0, s.curY + 8) else (s.curX + 8, s.curY)

/-- The groups of fields of the access table R39. -/
inductive FieldGroup where
  | mode
  | fb
  | cursor
  | colours
  | hist
  | origin
  | logical
  | glyphs
  | pacer
  | outq
  deriving DecidableEq, Repr

/-- The access table R39: the groups a command may write. A command the table does not name, and define
logical colour, writes none. -/
def mayWrite (i : Instr) : List FieldGroup :=
  match i with
  | .chr _ => [.fb, .cursor]
  | .left => [.cursor]
  | .right => [.cursor]
  | .down => [.fb, .cursor]
  | .up => [.cursor]
  | .cls => [.fb, .cursor]
  | .home => [.cursor]
  | .cr => [.cursor]
  | .tab _ _ => [.cursor]
  | .bs => [.fb, .cursor]
  | .clg => [.fb]
  | .colour _ => [.colours]
  | .gcol _ _ => [.colours]
  | .defcol _ _ _ _ _ => []
  | .mode _ => [.mode, .fb, .cursor, .colours, .hist, .origin, .logical, .outq]
  | .gpoll _ => [.outq]
  | .qcursor => [.outq]
  | .qmode => [.outq]
  | .logical _ => [.logical]
  | .defglyph _ _ _ _ _ _ _ _ _ => [.glyphs]
  | .plot _ _ _ => [.fb, .hist]
  | .origin _ _ => [.origin]
  | .unk _ => []
  | .keynop => []
  | .audio _ _ _ _ _ => []
  | .xunkSub _ => []
  | .xunkSel _ => []

/-- Two states agree on a group of fields. -/
def sameGroup (f : FieldGroup) (s t : State) : Prop :=
  match f with
  | .mode => t.mode = s.mode
  | .fb => t.fb = s.fb
  | .cursor => t.curX = s.curX ∧ t.curY = s.curY
  | .colours => t.fg = s.fg ∧ t.bg = s.bg ∧ t.gcol = s.gcol
  | .hist => t.hist = s.hist
  | .origin => t.origin = s.origin
  | .logical => t.logical = s.logical
  | .glyphs => t.glyphs = s.glyphs
  | .pacer => t.lastPresentUs = s.lastPresentUs ∧ t.lastBlinkUs = s.lastBlinkUs ∧ t.blinkOn = s.blinkOn
  | .outq => t.outq = s.outq

/-- One step of the error accumulator of R237: add the doubled x delta, then take the doubled y delta off
as often as it goes, one x step each time. `fuel` bounds the inner loop. -/
def accumulate (d2 : Nat) : Nat → Nat × Nat → Nat × Nat
  | 0, p => p
  | fuel + 1, (e, off) => if d2 ≤ e then accumulate d2 fuel (e - d2, off + 1) else (e, off)

/-- The error-accumulator form of the edge walk, for d ≥ 1 (R237): `n` further values from error `e` and
offset `off`. -/
def accumulatorXs (x s : Int) (w d : Nat) : Nat → Nat → Nat → List Int
  | 0, _, off => [x + s * off]
  | n + 1, e, off =>
    (x + s * off) :: accumulatorXs x s w d n (accumulate (2 * d) (2 * w + 1) (e + 2 * w, off)).1
      (accumulate (2 * d) (2 * w + 1) (e + 2 * w, off)).2

/-- The state an instruction leaves, or the state before it where it leaves none. -/
def after (i : Instr) (s : State) : State :=
  match exec i s with
  | .next t => t
  | .fault _ => s
  | .refused _ => s

/-- What the CPU peer can learn of a state through replies (R301): the mode, the cursor, the reply channel,
and the answers of the environment that decide whether MODE replies. -/
def samePeerView (s t : State) : Prop :=
  s.mode = t.mode ∧ s.curX = t.curX ∧ s.curY = t.curY ∧ s.outq = t.outq ∧
    s.outConnected = t.outConnected ∧ s.allocAnswers = t.allocAnswers ∧ s.draws = t.draws

end Sys2Proof.Machine
end

