-- ==== Sys2Proof/Certificates/Slice0/Obligations.lean ====
section
/-! DEFINITION. The statements for the provers. Each docstring names the rules of spec/ it rests on. -/

open Sys2Proof Sys2Proof.Machine

/-! Encoding (30_encoding.md). -/

/-- Every well-formed command decodes from its own bytes, whatever bytes follow (R91, R95, R96, R103). -/
def Obligations.DecodeOfEncode : Prop :=
  ∀ (i : Instr) (rest : List Byte), i.wellFormed = true → decode (encode i ++ rest) = .ok (i, rest)

/-- What decodes to a command is that command's bytes: each byte string has one reading, and every operand
the decoder gives is one the encoding admits (R95, R96, R105). -/
def Obligations.EncodeOfDecode : Prop :=
  ∀ (bs : List Byte) (i : Instr) (rest : List Byte),
    decode bs = .ok (i, rest) → i.wellFormed = true ∧ bs = encode i ++ rest

/-- The length function of R97, as R97 writes it, decides how many bytes a command takes: a shorter stream
is truncated by what is missing, a longer one loses exactly that many bytes. The command 0x17 is
treated by its selector, and by its sub-selector where the selector is 0. -/
def Obligations.LengthFunctionDecides : Prop :=
  (∀ (b0 : Byte) (rest : List Byte), b0 ≠ 0x17#8 →
    let len := if b0 = 0x11#8 ∨ b0 = 0x16#8 then 2
      else if b0 = 0x12#8 ∨ b0 = 0x1F#8 then 3
      else if b0 = 0x1D#8 then 5
      else if b0 = 0x13#8 ∨ b0 = 0x19#8 then 6
      else 1
    if rest.length + 1 < len then decode (b0 :: rest) = .error (.truncated (len - (rest.length + 1)))
    else ∃ i, decode (b0 :: rest) = .ok (i, rest.drop (len - 1))) ∧
  (decode [0x17#8] = .error (.truncated 1) ∧ decode [0x17#8, 0x00#8] = .error (.truncated 1)) ∧
  (∀ (sel : Byte) (rest : List Byte), sel ≠ 0x00#8 →
    let len := if sel.toNat ≤ 0x1F then 2 else 10
    if rest.length + 2 < len then
      decode (0x17#8 :: sel :: rest) = .error (.truncated (len - (rest.length + 2)))
    else ∃ i, decode (0x17#8 :: sel :: rest) = .ok (i, rest.drop (len - 2))) ∧
  (∀ (t : Byte) (rest : List Byte),
    let len := if t = 0x80#8 ∨ t = 0xC0#8 then 4 else if t = 0x85#8 then 10 else 3
    if rest.length + 3 < len then
      decode (0x17#8 :: 0x00#8 :: t :: rest) = .error (.truncated (len - (rest.length + 3)))
    else ∃ i, decode (0x17#8 :: 0x00#8 :: t :: rest) = .ok (i, rest.drop (len - 3)))

/-- A few words written out from the encoding tables decode to what they stand for (R95, R96, R103). -/
def Obligations.SampleWordsDecode : Prop :=
  decode [0x41#8] = .ok (.chr 0x41#8, []) ∧ decode [0x7F#8] = .ok (.bs, []) ∧
  decode [0x1C#8, 0x41#8] = .ok (.unk 0x1C#8, [0x41#8]) ∧
  decode [0x1F#8, 0x03#8, 0x04#8] = .ok (.tab 0x03#8 0x04#8, []) ∧
  decode [0x19#8, 0x05#8, 0x0A#8, 0x00#8, 0xFE#8, 0xFF#8] = .ok (.plot 0x05#8 0x000A#16 0xFFFE#16, []) ∧
  decode [0x17#8, 0x00#8, 0x82#8] = .ok (.qcursor, []) ∧
  decode [0x17#8, 0x05#8, 0x41#8] = .ok (.xunkSel 0x05#8, [0x41#8]) ∧
  decode [0x12#8, 0x00#8, 0x09#8] = .ok (.gcol 0x00#8 0x09#8, [])

/-- The value of an i16 field from its two bytes, low byte first; the fields are the x and y of PLOT and of
ORIGIN (R92). -/
def Obligations.FieldI16IsTwosComplement : Prop :=
  (∀ lo hi : Byte,
    i16 (word16 lo hi) = (hi.toNat * 256 + lo.toNat : Int) - (if 0x80 ≤ hi.toNat then 65536 else 0) ∧
    -32768 ≤ i16 (word16 lo hi) ∧ i16 (word16 lo hi) ≤ 32767) ∧
  ∀ (m x0 x1 y0 y1 : Byte) (rest : List Byte),
    decode (0x19#8 :: m :: x0 :: x1 :: y0 :: y1 :: rest) = .ok (.plot m (word16 x0 x1) (word16 y0 y1), rest) ∧
    decode (0x1D#8 :: x0 :: x1 :: y0 :: y1 :: rest) = .ok (.origin (word16 x0 x1) (word16 y0 y1), rest)

/-- The default table of plot classes (30_encoding.md section 2; the spec's own decision D10). -/
def Obligations.PlotClassFollowsTable : Prop :=
  ∀ m : Byte, plotClass m =
    if m.toNat ∈ [0, 4, 64, 68, 80, 84, 144, 148] then .move
    else if m.toNat ∈ [1, 2, 3, 5, 6, 7] then .line
    else if m.toNat ∈ [65, 66, 67, 69, 70, 71] then .dot
    else if m.toNat ∈ [81, 82, 83, 85, 86, 87] then .triangle
    else if m.toNat ∈ [145, 146, 147] then .circleRel
    else if m.toNat ∈ [149, 150, 151] then .circleAbs
    else .unsupported

/-! The tick and the step (41_interpreter.md section 1, 45_frame_pacer.md section 2). -/

/-- When the bytes read before and the bytes on `inq` begin with a command, a step that is a tick runs that
command with the stream moved past it and `dec` Idle, and then, if the block has not stopped, the
pacer check (R130–R132, R282). The model's choices in it: the time of a tick that nothing schedules is
the model's free clock value (log entry 9), no pacer check runs after a command that stopped the block
(log entry 17), and a tick runs one command, the spec's own decision D33 (log entry 19). -/
def Obligations.StepRunsDecodedCommand : Prop :=
  ∀ (s : State) (i : Instr) (rest : List Byte), s.halted = none → s.boot = [] →
    decode (s.dec.got ++ s.inq) = .ok (i, rest) →
    (∀ now es, s.env = .tick now :: es →
      ∃ t, exec i { s with env := es, clock := now, inq := rest, dec := .idle } = .next t ∧
        step s = .next (if t.dec = .idle ∧ t.halted = none then t.pacerCheck now else t)) ∧
    (s.env = [] → let now := s.clock + Config.freeElapsed s.draws
      ∃ t, exec i { s with draws := s.draws + 1, clock := now, inq := rest, dec := .idle } = .next t ∧
        step s = .next (if t.dec = .idle ∧ t.halted = none then t.pacerCheck now else t))

/-- A tick on a committed command that lacks bytes reads what is there, waits, and presents nothing,
whatever the time; if no byte can come any more it stops the block (R131, R65, R287). A step whose
next move is a tick does so, and so does a step with nothing scheduled, at the free time of log entry 9.
What `dec` and `inq` hold after F_IN_DISCONNECT is the model's choice, log entry 12. -/
def Obligations.TruncatedCommandBlocks : Prop :=
  ∀ (s : State), s.halted = none → s.dec.got ++ s.inq ≠ [] →
    (s.dec.got ++ s.inq).length < knownLength (s.dec.got ++ s.inq) →
    let waits (now : Int) : State := { s with
      clock := now
      inq := []
      dec := .blocked (s.dec.got ++ s.inq)
        (knownLength (s.dec.got ++ s.inq) - (s.dec.got ++ s.inq).length)
      halted := if s.inConnected then none else some .inDisconnect }
    (∀ now, tick now s = .next (waits now)) ∧
    (s.boot = [] →
      (∀ now es, s.env = .tick now :: es → step s = .next { waits now with env := es }) ∧
      (s.env = [] → step s = .next
        { waits (s.clock + Config.freeElapsed s.draws) with draws := s.draws + 1 }))

/-- With no byte on `inq` and no committed command the interpreter does nothing, even on a disconnected
channel, and the tick is the pacer check alone (R130, R282; the spec's own decision D36). So is a step
whose next move is a tick, and a step with nothing scheduled, at the free time of log entry 9. -/
def Obligations.IdleTickIsThePacerCheck : Prop :=
  ∀ (s : State), s.halted = none → s.dec = .idle → s.inq = [] →
    (∀ now, tick now s = .next (({ s with clock := now } : State).pacerCheck now)) ∧
    (s.boot = [] →
      (∀ now es, s.env = .tick now :: es →
        step s = .next (({ s with env := es, clock := now } : State).pacerCheck now)) ∧
      (s.env = [] → let now := s.clock + Config.freeElapsed s.draws
        step s = .next (({ s with draws := s.draws + 1, clock := now } : State).pacerCheck now)))

/-- A stopped block stays stopped: a tick and a key injection change nothing of it, and no step but a new
`start` changes anything besides the environment's own side of the channels and the model's own clock,
schedule and counter (R35, R306, R332). -/
def Obligations.StoppedBlockStaysStopped : Prop :=
  ∀ (s : State) (c : FatalCause), s.halted = some c →
    (∀ now, tick now s = .next { s with clock := now }) ∧
    (∀ code down, s.injectKey code down = s) ∧
    ((∀ t0 q a b, s.env.head? ≠ some (.start t0 q a b)) →
      ∃ env clock draws inq outq ic oc,
        step s = .next { s with
          env := env, clock := clock, draws := draws
          inq := inq, outq := outq, inConnected := ic, outConnected := oc })

/-- `inject_key` sends `81 04 code 00 00 down`, or stops the block where the receiver is gone (60_exceptions.md
section 5; the spec's own decision D39). -/
def Obligations.InjectKeySendsPacket : Prop :=
  ∀ (s : State) (code : Int) (down : Bool), s.halted = none →
    (s.outConnected = true → s.injectKey code down = { s with
      outq := s.outq ++ [0x81#8, 0x04#8, BitVec.ofNat 8 (code % 256).toNat, 0x00#8, 0x00#8,
        if down then 0x01#8 else 0x00#8] }) ∧
    (s.outConnected = false → s.injectKey code down = { s with halted := some .outDisconnect })

/-- The environment's moves. The CPU peer's acts happen in every state, running, stopped or with a boot message
pending: a sent byte joins the tail of `inq`, a taken byte leaves the head of `outq`, a disconnection clears
its flag (R33, R76, R311). The host's calls happen on a running block whose boot message is done and on a
stopped one: a key injection is `inject_key`, a tick is `tick`, a new start is `start` (R282, R310, R332). The
model's choices: the moves are a schedule in the state (log entry 8), `bootRuns` is nothing once no boot
message is pending (log entry 7), what a peer sends after it disconnected is dropped (log entry 13), and the
host may call `start` on a running block too, where R332 speaks of a stopped one (log entry 18). -/
def Obligations.EnvironmentMovesActOnTheChannels : Prop :=
  ∀ (s : State) (e : EnvMove) (es : List EnvMove), s.env = e :: es →
    (∀ bs, e = .peerSend bs → s.inConnected = true →
      step s = .next { s with env := es, inq := s.inq ++ bs }) ∧
    (∀ bs, e = .peerSend bs → s.inConnected = false → step s = .next { s with env := es }) ∧
    (∀ n, e = .peerTake n → step s = .next { s with env := es, outq := s.outq.drop n }) ∧
    (e = .closeIn → step s = .next { s with env := es, inConnected := false }) ∧
    (e = .closeOut → step s = .next { s with env := es, outConnected := false }) ∧
    ((s.halted = none → s.boot = []) →
      (∀ code down, e = .injectKey code down →
        step s = .next (({ s with env := es } : State).injectKey code down)) ∧
      (∀ now, e = .tick now → step s = tick now { s with env := es }) ∧
      (∀ t0 q a b, e = .start t0 q a b → step s = .next (({ s with env := es } : State).start t0 q a b)) ∧
      (e = .bootRuns → step s = .next { s with env := es }))

/-- While `start()` has commands of the boot message left to run, a step that is no act of the CPU peer runs the
first of them, whatever call the host has scheduled; where what is left does not begin with a whole command
that step is refused (R331; 93_implementation_defined.md K-9). That each command is one step, that the move
`bootRuns` places it before the moves scheduled after it, and that the refusal comes when the unfinished
command is reached, is the model's choice: log entry 7. -/
def Obligations.BootMessageRunsFirst : Prop :=
  ∀ s : State, s.halted = none → s.boot ≠ [] →
    let runs (env : List EnvMove) : Prop :=
      (∀ i rest, decode s.boot = .ok (i, rest) → step s = exec i { s with env := env, boot := rest }) ∧
      (∀ e, decode s.boot = .error e → step s = .refused .bootMessageIncomplete)
    (s.env = [] → runs s.env) ∧
    (∀ now es, s.env = .tick now :: es → runs s.env) ∧
    (∀ code down es, s.env = .injectKey code down :: es → runs s.env) ∧
    (∀ t0 q a b es, s.env = .start t0 q a b :: es → runs s.env) ∧
    (∀ es, s.env = .bootRuns :: es → runs es)

/-- No step is refused but for a boot message that is not whole commands (K-9), and none faults. The refusal
coming when the unfinished command is reached is the model's choice, log entry 7; fatal errors being next
states, so that nothing faults, is the model's deduction, log entry 16. -/
def Obligations.OnlyABadBootMessageIsRefused : Prop :=
  ∀ s : State, (∃ t, step s = .next t) ∨
    (step s = .refused .bootMessageIncomplete ∧ s.halted = none ∧ s.boot ≠ [] ∧
      s.boot.length < knownLength s.boot)

/-! Reset (70_reset_and_hazards.md section 1, 10_state.md section 9). -/

/-- What reset leaves in every field (R40, first column): the mode is `default_mode`, a key of ModeTable; the
colours are the default indices resolved in it (the spec's own decisions D8, D9, D35); every pixel is `bg`;
the cursor, the history and the origin are at zero; the glyphs are `default_font`, its slot 0 blank (the
spec's own decision D6); nothing is sent (BOOT_SENDS_MODE_REPLY = false, the spec's own decision D38 and log
entry 19), presented or logged. The model's choices: t0 = 0 and an allocation that succeeds (log entry 6),
the pending boot message (7), the empty schedule (8), the clock and the counter at 0 (9), no allocation
answers (10), the channels connected and empty (11). The OPEN values are constants of Config (2). -/
def Obligations.ResetLeavesStatedValues : Prop :=
  let r := State.reset
  r.ModeKnown ∧ ((modeTable Config.startMode).isSome = true → r.mode = Config.startMode) ∧
  r.fg = resolve r.mode 15#8 ∧ r.bg = resolve r.mode 0#8 ∧ r.gcol = resolve r.mode 15#8 ∧
  (∀ a, a < r.width * r.height → r.fb.read a = r.bg) ∧
  r.curX = 0 ∧ r.curY = 0 ∧ r.hist = ⟨⟨0, 0⟩, ⟨0, 0⟩, ⟨0, 0⟩⟩ ∧ r.origin = ⟨0, 0⟩ ∧ r.logical = false ∧
  r.glyphs[(0 : Fin 224)] = #v[0, 0, 0, 0, 0, 0, 0, 0] ∧
  (∀ k : Fin 224, k ≠ 0 → r.glyphs[k] = Config.fontBody[k]) ∧
  r.lastPresentUs = 0 ∧ r.lastBlinkUs = 0 ∧ r.blinkOn = false ∧ r.dec = .idle ∧ r.halted = none ∧
  r.inq = [] ∧ r.outq = [] ∧ r.inConnected = true ∧ r.outConnected = true ∧
  r.presented = [] ∧ r.diagLog = [] ∧ r.boot = Config.bootMessage ∧
  r.env = [] ∧ r.clock = 0 ∧ r.allocAnswers = [] ∧ r.draws = 0

/-- A new `start(t0)` builds every field again, from any state and with any answer of the allocation draw, the
free one too (R330, R332; the draw is log entry 10). Where it succeeds: the reset values, with the pacer's
timestamps at t0 and the channels the environment supplies; `outq` empty rests on BOOT_SENDS_MODE_REPLY =
false (the spec's own decision D38, log entry 19). Where it fails the block stops with F_ALLOC and the mode,
the framebuffer and what goes with it are as before (the spec's own decision D41). The model's deduction, log
entry 18: the fields that R330 writes before the allocation, and the channels, are written then too. -/
def Obligations.StartBuildsTheStateAgain : Prop :=
  ∀ (s : State) (t0 : Int) (q : List Byte) (a b : Bool),
    (s.allocOk defaultMode = true → s.start t0 q a b = { State.reset with
      lastPresentUs := t0, lastBlinkUs := t0, clock := t0
      inq := q, inConnected := a, outConnected := b
      env := s.env, allocAnswers := s.afterAlloc.allocAnswers, draws := s.afterAlloc.draws }) ∧
    (s.allocOk defaultMode = false → s.start t0 q a b = { s with
      halted := some (.alloc defaultMode), dec := .idle, diagLog := [], presented := []
      glyphs := defaultFont, inq := q, outq := [], inConnected := a, outConnected := b
      boot := [], clock := t0
      allocAnswers := s.afterAlloc.allocAnswers, draws := s.afterAlloc.draws })

/-! Invariants that every step keeps, from every state. -/

/-- The framebuffer stays W·H pixels (R25, R60, R61) in canonical form: addresses strictly rising, inside the
space, no entry equal to what an unlisted address reads as. That form is the model's representation, log
entry 5. -/
def Obligations.StepKeepsFramebufferCanonical : Prop :=
  ∀ s t : State, s.FbCanonical → step s = .next t → t.FbCanonical

/-- The cursor's guarantees of R41: 0 ≤ cur_x < W and cur_y ≥ 0. That every mode of the table has W ≥ 1 and
H ≥ 8, which they need, is the model's deduction from R41: log entry 3. -/
def Obligations.StepKeepsCursorSound : Prop :=
  ∀ s t : State, s.CursorSound → step s = .next t → t.CursorSound

/-- The mode stays a key of ModeTable (R24), and the origin's coordinates stay i16 values (R29). -/
def Obligations.StepKeepsModeAndOriginSound : Prop :=
  ∀ s t : State, s.ModeKnown ∧ s.OriginSound → step s = .next t → t.ModeKnown ∧ t.OriginSound

/-- `dec` is Blocked only with an unfinished command, and `need` is what its prefix tells (R23). -/
def Obligations.StepKeepsDecoderSound : Prop :=
  ∀ s t : State, s.DecoderSound → step s = .next t → t.DecoderSound

/-- The four invariants hold at reset: the base case of the statements before it. It rests on the model's choices
for State.reset alone (t0 = 0 and an allocation that succeeds, log entry 6) and on the representation of the
framebuffer (log entry 5). -/
def Obligations.ResetIsSound : Prop :=
  State.reset.FbCanonical ∧ State.reset.CursorSound ∧ State.reset.ModeKnown ∧ State.reset.OriginSound ∧
    State.reset.DecoderSound

/-- A step presents at most one frame (R283, R71); only a new `start` empties the presentation port (R330). A
`start` on a running block is the model's choice, log entry 18. -/
def Obligations.StepPresentsAtMostOnce : Prop :=
  ∀ s t : State, step s = .next t →
    t.presented = s.presented ∨ (∃ f, t.presented = s.presented ++ [f]) ∨
    (∃ t0 q a b, s.env.head? = some (.start t0 q a b) ∧ t.presented = [])

/-! Text (42_text_glyph.md). -/

/-- LEFT, UP and CR, each one byte: 8 pixels left or up, clamped at 0, or to column 0; nothing else changes
(R173, R174, R179). -/
def Obligations.LeftUpCrMoveTheCursor : Prop :=
  ∀ (s : State) (rest : List Byte),
    decode (0x08#8 :: rest) = .ok (.left, rest) ∧
    decode (0x0B#8 :: rest) = .ok (.up, rest) ∧
    decode (0x0D#8 :: rest) = .ok (.cr, rest) ∧
    exec .left s = .next { s with curX := if s.curX ≤ 8 then 0 else s.curX - 8 } ∧
    exec .up s = .next { s with curY := if s.curY ≤ 8 then 0 else s.curY - 8 } ∧
    exec .cr s = .next { s with curX := 0 }

/-- HOME puts the cursor at the top left (42_text_glyph.md section 2; the spec's own decision D22). -/
def Obligations.HomeMovesTheCursor : Prop :=
  ∀ s : State, exec .home s = .next { s with curX := 0, curY := 0 }

/-- RIGHT: one cell to the right, or to the start of the next row where that reaches W; no scroll
(42_text_glyph.md section 2; conflict C7 and the spec's own decision D32). -/
def Obligations.RightMovesOrWraps : Prop :=
  ∀ s : State, exec .right s = .next { s with curX := s.nextCell.1, curY := s.nextCell.2 }

/-- From column 0 in a mode whose width is whole cells, W/8 times RIGHT wraps exactly once, at the last
call (42_text_glyph.md section 2, the source's §8 property; conflict C7). -/
def Obligations.RightAcrossARowWrapsOnce : Prop :=
  ∀ (s : State) (n : Nat), s.curX = 0 → s.width = 8 * s.cols → n ≤ s.cols →
    (after .right)^[n] s =
      if n < s.cols then { s with curX := 8 * n } else { s with curX := 0, curY := s.curY + 8 }

/-- DOWN: cur_y + 8, then the pixel-exact scroll by the overflow ov = cur_y + 8 + 8 − H where it is
positive: every pixel takes the pixel ov rows below it, or `bg` where there is none, and cur_y becomes
H − 8 (42_text_glyph.md section 2; the spec's own decision D32 on the band's colour). -/
def Obligations.DownScrollsByTheOverflow : Prop :=
  ∀ s : State, let ov : Int := s.curY + 16 - s.height
    ∃ fb, exec .down s = .next { s with fb := fb, curY := if ov ≤ 0 then s.curY + 8 else s.height - 8 } ∧
      (ov ≤ 0 → fb = s.fb) ∧
      (0 < ov → ∀ p, inFrame s.width s.height p = true →
        fb.read (pixelAddr s.width p) =
          if p.y + ov < s.height then s.fb.read (pixelAddr s.width ⟨p.x, p.y + ov⟩) else s.bg)

/-- CLS, one byte: every pixel becomes `bg` and the cursor goes to (0, 0); the graphics state is kept (R181). -/
def Obligations.ClsClearsAndHomes : Prop :=
  (∀ rest, decode (0x0C#8 :: rest) = .ok (.cls, rest)) ∧
  ∀ s : State, ∃ fb, exec .cls s = .next { s with fb := fb, curX := 0, curY := 0 } ∧
    ∀ a, a < s.width * s.height → fb.read a = s.bg

/-- CLG: every pixel becomes `bg` and nothing else changes (43_graphics.md section 6; the spec's own decision
D21). -/
def Obligations.ClgClears : Prop :=
  ∀ s : State, ∃ fb, exec .clg s = .next { s with fb := fb } ∧
    ∀ a, a < s.width * s.height → fb.read a = s.bg

/-- TAB goes to a cell of the grid, and does nothing outside it (42_text_glyph.md section 2; the spec's own
decision D23). -/
def Obligations.TabGoesToACell : Prop :=
  ∀ (s : State) (col row : Byte), exec (.tab col row) s =
    .next (if (col.toNat + 1) * 8 ≤ s.width ∧ (row.toNat + 1) * 8 ≤ s.height then
      { s with curX := 8 * (col.toNat : Int), curY := 8 * (row.toNat : Int) } else s)

/-- CHR: the glyph's cell is drawn at the cursor, the cursor advances, and the screen scrolls by the overflow
of the new cursor where that is positive; every pixel of the result is stated, and nothing but the
framebuffer and the cursor changes (42_text_glyph.md section 3; the spec's own decisions D30, D31,
D32). The slot is that of c − 32 (R172). -/
def Obligations.ChrRendersAdvancesScrolls : Prop :=
  ∀ (s : State) (c : Byte), printable c = true →
    let ov : Int := s.nextCell.2 + 8 - s.height
    ∃ fb, exec (.chr c) s = .next { s with
        fb := fb
        curX := s.nextCell.1
        curY := if ov ≤ 0 then s.nextCell.2 else s.height - 8 } ∧
      ∀ p, inFrame s.width s.height p = true →
        fb.read (pixelAddr s.width p) =
          if ov ≤ 0 then s.rendered s.glyphs[slotOf c] p
          else if p.y + ov < s.height then s.rendered s.glyphs[slotOf c] ⟨p.x, p.y + ov⟩
          else s.bg

/-- After CHR and after DOWN the cursor cell's bottom edge is inside the framebuffer: cur_y ≤ H − 8 (R41). -/
def Obligations.ScrollCheckBoundsTheCursor : Prop :=
  ∀ (s : State) (c : Byte),
    (∃ t, exec (.chr c) s = .next t ∧ t.curY ≤ t.height - 8) ∧
    (∃ t, exec .down s = .next t ∧ t.curY ≤ t.height - 8)

/-- BS, one byte: one cell left, clamped at 0, and the cell there becomes `bg`; no other pixel and no other
field changes (R183). -/
def Obligations.BackspaceBlanksTheCell : Prop :=
  (∀ rest, decode (0x7F#8 :: rest) = .ok (.bs, rest)) ∧
  ∀ s : State, let x : Int := max 0 (s.curX - 8)
    ∃ fb, exec .bs s = .next { s with fb := fb, curX := x } ∧
      ∀ p, inFrame s.width s.height p = true →
        fb.read (pixelAddr s.width p) = if inCell x s.curY p then s.bg else s.fbRead p

/-- A glyph, a backspace and a space at a cell that needs neither wrap nor scroll leave that cell all `bg`, as
on a cleared screen, and every other pixel as it was, if the space glyph is blank (the source's §8 check;
42_text_glyph.md section 3, the spec's own decision D6). -/
def Obligations.GlyphBackspaceSpaceLeavesBackground : Prop :=
  ∀ (s : State) (c : Byte), printable c = true →
    0 ≤ s.curX → s.curX + 8 < s.width → s.curY + 8 ≤ s.height →
    s.glyphs[(0 : Fin 224)] = Glyph.blank →
    ∀ p, inFrame s.width s.height p = true →
      (after (.chr 0x20#8) (after .bs (after (.chr c) s))).fbRead p =
        if inCell s.curX s.curY p then s.bg else s.fbRead p

/-- DEFGLYPH stores its eight rows, top row first, in slot c − 32; every other slot and every other field is
kept, the framebuffer among them (R149, R63). -/
def Obligations.DefglyphStoresItsRows : Prop :=
  ∀ (s : State) (c r0 r1 r2 r3 r4 r5 r6 r7 : Byte), glyphSel c = true →
    ∃ g, exec (.defglyph c r0 r1 r2 r3 r4 r5 r6 r7) s = .next { s with glyphs := g } ∧
      ∀ k : Fin 224, g[k] = if k.val + 32 = c.toNat then #v[r0, r1, r2, r3, r4, r5, r6, r7] else s.glyphs[k]

/-- A redefinition is seen by the very next render: a code redefined with eight zero bytes draws no
foreground pixel (R80, R149; the source's §8 scenario). -/
def Obligations.RedefinedGlyphRendersAtOnce : Prop :=
  ∀ (s : State) (c : Byte), printable c = true → s.nextCell.2 + 8 ≤ s.height →
    ∀ p, inFrame s.width s.height p = true →
      (after (.chr c) (after (.defglyph c 0 0 0 0 0 0 0 0) s)).fbRead p =
        if inCell s.curX s.curY p then s.bg else s.fbRead p

/-! Graphics (43_graphics.md). -/

/-- The transform of a plotted point in both coordinate modes (43_graphics.md section 1; the source's flip
formula, and the spec's own decisions D18 on the division and D19 on the origin's units). -/
def Obligations.TransformScalesThenTranslates : Prop :=
  ∀ (s : State) (x y : Int),
    (s.logical = false → s.transform ⟨x, y⟩ = ⟨x + s.origin.x, y + s.origin.y⟩) ∧
    (s.logical = true → s.transform ⟨x, y⟩ =
      ⟨(x * s.width).tdiv 1280 + s.origin.x, s.height - (y * s.height).tdiv 1024 - s.origin.y⟩)

/-- Scale is the identity in device mode, and translate is undone by its inverse in each mode (the source's
§8 checks; 43_graphics.md section 1). -/
def Obligations.TranslateIsInvertible : Prop :=
  ∀ (s : State) (p : Point),
    (s.logical = false → s.scale p = p ∧
      (⟨(s.translate p).x - s.origin.x, (s.translate p).y - s.origin.y⟩ : Point) = p) ∧
    (s.logical = true →
      (⟨(s.translate p).x - s.origin.x, s.height - (s.translate p).y - s.origin.y⟩ : Point) = p)

/-- PLOT pushes T(x, y) first, for every class, and then sets exactly the pixels of its class in `gcol`: the
line p2 → p1, the point p1, the triangle p1 p2 p3, the circle about p2 with radius from p1 to T(0, 0) or to
p2; a move sets none, an unsupported code records its diagnostic. Nothing else changes (R34, R221–R224;
43_graphics.md section 2 and the spec's own decisions D11, D12, D16 for the rest). -/
def Obligations.PlotPushesThenDraws : Prop :=
  ∀ (s : State) (m : Byte) (x y : Word16),
    let p1 := s.transform ⟨i16 x, i16 y⟩
    let pts : List Point := match plotClass m with
      | .move => []
      | .line => linePoints s.hist.p1 p1
      | .dot => [p1]
      | .triangle => trianglePoints p1 s.hist.p1 s.hist.p2
      | .circleRel => circlePoints s.hist.p1 (distSq p1 (s.transform ⟨0, 0⟩))
      | .circleAbs => circlePoints s.hist.p1 (distSq p1 s.hist.p1)
      | .unsupported => []
    ∃ fb, exec (.plot m x y) s = .next { s with
        fb := fb
        hist := ⟨p1, s.hist.p1, s.hist.p2⟩
        diagLog := if plotClass m = .unsupported then s.diagLog ++ [.plotUnsupported m] else s.diagLog } ∧
      ∀ a, fb.read a = if s.Hits pts a then s.gcol else s.fb.read a

/-- The line from a to b is the walk of R232 (the spec's own decision D13): from a, with the error dx + dy, each
next position and error are those of the loop, until b. So it has max(|Δx|, |Δy|) + 1 positions, all
different, from a to b, each within one pixel of the one before it in each coordinate (43_graphics.md
section 3, derived there); and, derived here, position k is a plus k/max(|Δx|, |Δy|) of the way in each
coordinate, rounded to the nearest pixel, a half away from a: so a line and its reverse differ. -/
def Obligations.LineIsConnectedAndExact : Prop :=
  ∀ a b : Point,
    let n := max (b.x - a.x).natAbs (b.y - a.y).natAbs
    (linePoints a b).length = n + 1 ∧
    (linePoints a b).Nodup ∧
    (linePoints a b).head? = some a ∧ (linePoints a b).getLast? = some b ∧
    ((linePoints a b).IsChain fun p q => (q.x - p.x).natAbs ≤ 1 ∧ (q.y - p.y).natAbs ≤ 1) ∧
    (∀ k : Nat, k ≤ n → (linePoints a b)[k]? = some
      ⟨a.x + (b.x - a.x).sign * ((2 * k * (b.x - a.x).natAbs + n) / (2 * n) : Nat),
        a.y + (b.y - a.y).sign * ((2 * k * (b.y - a.y).natAbs + n) / (2 * n) : Nat)⟩) ∧
    ∃ err : Nat → Int,
      let dx : Int := (b.x - a.x).natAbs
      let dy : Int := -((b.y - a.y).natAbs : Int)
      let sx : Int := if a.x < b.x then 1 else -1
      let sy : Int := if a.y < b.y then 1 else -1
      err 0 = dx + dy ∧
      ∀ (k : Nat) (p : Point), k < n → (linePoints a b)[k]? = some p →
        (linePoints a b)[k + 1]? = some
          ⟨if 2 * err k ≥ dy then p.x + sx else p.x, if 2 * err k ≤ dx then p.y + sy else p.y⟩ ∧
        err (k + 1) = err k + (if 2 * err k ≥ dy then dy else 0) + (if 2 * err k ≤ dx then dx else 0)

/-- The edge walk gives |Δy| + 1 values; the first is A.x, and for |Δy| ≥ 1 the last is B.x (the source's §8
boundary invariant; 43_graphics.md section 4, the spec's own decision D14, conflict C4). -/
def Obligations.EdgeWalkHasItsEndpoints : Prop :=
  ∀ a b : Point,
    (edgeXs a b).length = (b.y - a.y).natAbs + 1 ∧
    (edgeXs a b).head? = some a.x ∧
    ((edgeXs a b).getLast? = some (if a.y = b.y then a.x else b.x))

/-- The closed form of the edge walk and its error-accumulator form give the same list (43_graphics.md
section 4, derived there). -/
def Obligations.EdgeWalkIsTheAccumulator : Prop :=
  ∀ a b : Point, a.y ≠ b.y →
    edgeXs a b = accumulatorXs a.x (b.x - a.x).sign (b.x - a.x).natAbs (b.y - a.y).natAbs
      (b.y - a.y).natAbs (b.y - a.y).natAbs 0

/-- The filled triangle does not depend on the order of its vertices (the source's §8 check; 43_graphics.md
section 4). The two transpositions give every permutation. -/
def Obligations.TriangleIgnoresVertexOrder : Prop :=
  ∀ p q r : Point,
    trianglePoints q p r = trianglePoints p q r ∧ trianglePoints p r q = trianglePoints p q r

/-- The filled triangle has exactly one inclusive span on each scanline from its top to its bottom vertex, none
elsewhere, and it holds its three vertices (43_graphics.md section 4, derived there). For vertices in the
order of the sort, by y and then x, the span's ends are the edge walks' values: of the long edge, and of the
first short edge above the middle vertex, of the second from its scanline on; a triangle on one scanline
spans its least to its greatest x (R238; the spec's own decision D15). -/
def Obligations.TriangleHasOneSpanPerScanline : Prop :=
  (∀ p q r : Point,
    (∀ v ∈ trianglePoints p q r, min p.y (min q.y r.y) ≤ v.y ∧ v.y ≤ max p.y (max q.y r.y)) ∧
    (∀ y, min p.y (min q.y r.y) ≤ y → y ≤ max p.y (max q.y r.y) →
      ∃ xl xr : Int, xl ≤ xr ∧ ∀ x : Int, (⟨x, y⟩ : Point) ∈ trianglePoints p q r ↔ xl ≤ x ∧ x ≤ xr) ∧
    p ∈ trianglePoints p q r ∧ q ∈ trianglePoints p q r ∧ r ∈ trianglePoints p q r) ∧
  ∀ t m b : Point, (t.y < m.y ∨ t.y = m.y ∧ t.x ≤ m.x) → (m.y < b.y ∨ m.y = b.y ∧ m.x ≤ b.x) →
    (t.y = b.y → ∀ v, v ∈ trianglePoints t m b ↔
      v.y = t.y ∧ min t.x (min m.x b.x) ≤ v.x ∧ v.x ≤ max t.x (max m.x b.x)) ∧
    (t.y < b.y → ∀ y, t.y ≤ y → y ≤ b.y → ∃ l s : Int,
      (edgeXs t b)[(y - t.y).toNat]? = some l ∧
      (if y < m.y then (edgeXs t m)[(y - t.y).toNat]? else (edgeXs m b)[(y - m.y).toNat]?) = some s ∧
      ∀ x : Int, (⟨x, y⟩ : Point) ∈ trianglePoints t m b ↔ min l s ≤ x ∧ x ≤ max l s)

/-- Each vertex of a circle of radius √n is the centre plus the exact real values √n·cos(2πk/32) and
√n·sin(2πk/32), rounded half away from zero (43_graphics.md section 5; the spec's own decision D16), and the
circle's pixels are those of the 32 lines from each vertex to the next, the last one closing the loop. The
model decides the rounding by integer tests alone: log entry 14. -/
def Obligations.CircleVerticesAreExactRoundings : Prop :=
  (∀ (c : Point) (n k : Nat), k < 32 →
    let u : Real := Real.sqrt n * Real.cos (2 * Real.pi * k / 32)
    let v : Real := Real.sqrt n * Real.sin (2 * Real.pi * k / 32)
    (circleVertex c n k).x = c.x + (SignType.sign u : Int) * ⌊|u| + 1 / 2⌋ ∧
    (circleVertex c n k).y = c.y + (SignType.sign v : Int) * ⌊|v| + 1 / 2⌋) ∧
  ∀ (c : Point) (n : Nat) (p : Point), p ∈ circlePoints c n ↔
    ∃ k < 32, p ∈ linePoints (circleVertex c n k) (circleVertex c n ((k + 1) % 32))

/-- A circle of radius 0 is its centre alone (43_graphics.md section 5, derived there). -/
def Obligations.CircleOfRadiusZeroIsItsCentre : Prop :=
  ∀ (c p : Point), p ∈ circlePoints c 0 ↔ p = c

/-- The relative circle's radius in device mode is the length of the operand pair, whatever the origin
(43_graphics.md section 5; the spec's own decision D16). -/
def Obligations.RelativeRadiusIsTheOperandVector : Prop :=
  ∀ (s : State) (x y : Int), s.logical = false →
    (distSq (s.transform ⟨x, y⟩) (s.transform ⟨0, 0⟩) : Int) = x ^ 2 + y ^ 2

/-- ORIGIN stores its two i16 values as received, and nothing else changes (43_graphics.md section 6; the
spec's own decision D19). -/
def Obligations.OriginIsStoredAsReceived : Prop :=
  ∀ (s : State) (x0 x1 y0 y1 : Byte), exec (.origin (word16 x0 x1) (word16 y0 y1)) s = .next { s with
    origin := ⟨(word16 x0 x1).toInt, (word16 y0 y1).toInt⟩ }

/-! Colours (44_palette.md). -/

/-- COLOUR: below 128 the text foreground, from 128 on the text background, by the active palette modulo its
length; c − 128 gives the same entry as c (R262). -/
def Obligations.ColourSelectsTextColours : Prop :=
  ∀ (s : State) (c : Byte), let n := (modeEntry s.mode).colours.toNat
    (n = 2 ∨ n = 16 ∨ n = 64) ∧
    exec (.colour c) s = .next
      (if c.toNat < 128 then { s with fg := Config.paletteEntry s.mode (c.toNat % n) }
      else { s with bg := Config.paletteEntry s.mode ((c.toNat - 128) % n) }) ∧
    (128 ≤ c.toNat → (c.toNat - 128) % n = c.toNat % n)

/-- GCOL: the graphics colour, for every mode byte and for c ≥ 128 too (44_palette.md section 2; the spec's own
decision D20). -/
def Obligations.GcolSelectsGraphicsColour : Prop :=
  ∀ (s : State) (m c : Byte), exec (.gcol m c) s =
    .next { s with gcol := Config.paletteEntry s.mode (c.toNat % (modeEntry s.mode).colours.toNat) }

/-- DEFCOL changes nothing (R264); nor do KEYNOP and AUDIO (41_interpreter.md section 2; the spec's own
decisions D26, D28). -/
def Obligations.NoOpCommandsChangeNothing : Prop :=
  ∀ (s : State) (a b c d e : Byte) (f g : Word16),
    exec (.defcol a b c d e) s = .next s ∧ exec .keynop s = .next s ∧ exec (.audio a b c f g) s = .next s

/-! The interpreter's own commands (41_interpreter.md). -/

/-- UNK and both forms of XUNK append one event to `diag_log` and change nothing else (R133; 41_interpreter.md
section 2 and the spec's own decision D25 for XUNK). -/
def Obligations.UnknownCommandsOnlyLog : Prop :=
  ∀ (s : State) (b : Byte),
    exec (.unk b) s = .next { s with diagLog := s.diagLog ++ [.cmdUnknown b] } ∧
    exec (.xunkSel b) s = .next { s with diagLog := s.diagLog ++ [.extUnknownSel b] } ∧
    exec (.xunkSub b) s = .next { s with diagLog := s.diagLog ++ [.extUnknownSub b] }

/-- The three queries append their packet to `outq` and change nothing else: `80 01 b`; `82 02` and the
cursor's cell; `86 07` and the mode's geometry, low byte first (41_interpreter.md section 2; the spec's own
decisions D27, D43). -/
def Obligations.QueriesReply : Prop :=
  ∀ (s : State) (b : Byte), s.outConnected = true →
    exec (.gpoll b) s = .next { s with outq := s.outq ++ [0x80#8, 0x01#8, b] } ∧
    exec .qcursor s = .next { s with outq := s.outq ++ [0x82#8, 0x02#8,
      BitVec.ofNat 8 ((s.curX.fdiv 8) % 256).toNat, BitVec.ofNat 8 ((s.curY.fdiv 8) % 256).toNat] } ∧
    exec .qmode s = .next { s with outq := s.outq ++ [0x86#8, 0x07#8,
      BitVec.ofNat 8 (s.width % 256), BitVec.ofNat 8 (s.width / 256),
      BitVec.ofNat 8 (s.height % 256), BitVec.ofNat 8 (s.height / 256),
      BitVec.ofNat 8 (s.cols % 256), BitVec.ofNat 8 (s.rows % 256),
      BitVec.ofNat 8 ((modeEntry s.mode).colours.toNat % 256)] }

/-- A query whose receiver is gone stops the block and sends no byte (60_exceptions.md section 3). -/
def Obligations.QueriesWithoutReceiverStop : Prop :=
  ∀ (s : State) (b : Byte), s.outConnected = false →
    exec (.gpoll b) s = .next { s with halted := some .outDisconnect } ∧
    exec .qcursor s = .next { s with halted := some .outDisconnect } ∧
    exec .qmode s = .next { s with halted := some .outDisconnect }

/-- LOGICAL: zero clears the flag, any other byte sets it; nothing else changes (41_interpreter.md section 2;
the spec's own decision D29). -/
def Obligations.LogicalWritesTheFlag : Prop :=
  ∀ (s : State) (b : Byte), exec (.logical b) s = .next { s with logical := decide (0 < b.toNat) }

/-- MODE with an index of the table, the framebuffer allocated and the receiver there: every field of R40's
second column, every pixel the new `bg`, and the mode-information packet; the glyph store, the pacer, the
ports and the decoder are kept (41_interpreter.md section 3; the spec's own decisions D8, D9, D24). The
allocation's answer is the draw of log entry 10: the environment's next one, else the free one. -/
def Obligations.ModeSwitchResetsAndReplies : Prop :=
  ∀ (s : State) (m : Byte) (e : ModeInfo),
    modeTable m = some e → s.allocOk m = true → s.outConnected = true →
    ∃ fb, exec (.mode m) s = .next { s with
        mode := m, fb := fb, curX := 0, curY := 0
        fg := resolve m 15#8, bg := resolve m 0#8, gcol := resolve m 15#8
        hist := ⟨⟨0, 0⟩, ⟨0, 0⟩, ⟨0, 0⟩⟩, origin := ⟨0, 0⟩, logical := false
        allocAnswers := s.afterAlloc.allocAnswers, draws := s.afterAlloc.draws
        outq := s.outq ++ [0x86#8, 0x07#8,
          BitVec.ofNat 8 (e.width % 256), BitVec.ofNat 8 (e.width / 256),
          BitVec.ofNat 8 (e.height % 256), BitVec.ofNat 8 (e.height / 256),
          BitVec.ofNat 8 (e.width / 8 % 256), BitVec.ofNat 8 (e.height / 8 % 256),
          BitVec.ofNat 8 (e.colours.toNat % 256)] } ∧
      ∀ a, a < e.width * e.height → fb.read a = resolve m 0#8

/-- Where MODE does not switch: an index outside the table is a diagnostic and nothing else; a failed
allocation stops the block with every field as it was; a receiver that is gone stops the block after the
whole reset, with no byte sent (41_interpreter.md section 3, 60_exceptions.md section 3; the spec's own
decisions D24, D41). The last clauses say what the allocation's draw is (log entry 10): the environment's next
answer, which is then used up, or with none the free one, which the counter moves past. -/
def Obligations.ModeSwitchFailures : Prop :=
  ∀ (s : State) (m : Byte),
    (modeTable m = none → exec (.mode m) s = .next { s with diagLog := s.diagLog ++ [.modeUnknown m] }) ∧
    ((modeTable m).isSome → s.allocOk m = false → exec (.mode m) s = .next { s with
      allocAnswers := s.afterAlloc.allocAnswers, draws := s.afterAlloc.draws, halted := some (.alloc m) }) ∧
    ((modeTable m).isSome → s.allocOk m = true → s.outConnected = false →
      ∃ fb, exec (.mode m) s = .next { s with
        mode := m, fb := fb, curX := 0, curY := 0
        fg := resolve m 15#8, bg := resolve m 0#8, gcol := resolve m 15#8
        hist := ⟨⟨0, 0⟩, ⟨0, 0⟩, ⟨0, 0⟩⟩, origin := ⟨0, 0⟩, logical := false
        allocAnswers := s.afterAlloc.allocAnswers, draws := s.afterAlloc.draws
        halted := some .outDisconnect } ∧
        ∀ a, a < (modeEntry m).width * (modeEntry m).height → fb.read a = resolve m 0#8) ∧
    (∀ ok as, s.allocAnswers = ok :: as → s.allocOk m = ok ∧ s.afterAlloc = { s with allocAnswers := as }) ∧
    (s.allocAnswers = [] → s.allocOk m = Config.freeAlloc s.draws m ∧
      s.afterAlloc = { s with draws := s.draws + 1 })

/-- The access table: no command writes a group of fields the table does not give it, and no command touches
the decoder phase, `inq`, the connections, the presentation port or the boot message (10_state.md section 8,
R32). -/
def Obligations.CommandsWriteOnlyTheirFields : Prop :=
  ∀ (i : Instr) (s t : State), exec i s = .next t →
    (∀ f, f ∉ mayWrite i → sameGroup f s t) ∧
    t.dec = s.dec ∧ t.inq = s.inq ∧ t.inConnected = s.inConnected ∧ t.outConnected = s.outConnected ∧
    t.presented = s.presented ∧ t.boot = s.boot

/-- What the CPU peer can learn: two states alike in mode, cursor, reply channel and allocation answers stay
alike in them under every command, so no reply depends on the framebuffer, the colours, the history, the
origin, the glyphs or the pacer (60_exceptions.md section 1, derived there). -/
def Obligations.RepliesShowOnlyModeAndCursor : Prop :=
  ∀ (i : Instr) (s s' t t' : State), samePeerView s s' →
    exec i s = .next t → exec i s' = .next t' → samePeerView t t'

/-! The frame pacer (45_frame_pacer.md). -/

/-- The pacer check: below the interval nothing happens; from the interval on one frame is presented, with
every pixel the master colour of its framebuffer pixel, the cursor and the new blink phase, which toggles
from 500000 µs on after its last toggle (45_frame_pacer.md sections 1 to 3; the spec's own decisions D34,
D35). The picture shown is those pixels, with the OPEN cursor shape drawn over them where the blink is on
(log entry 15). -/
def Obligations.PacerCheckPresentsWhenDue : Prop :=
  ∀ (s : State) (now : Int), let due := s.lastPresentUs + ((1000000 / s.refreshHz : Nat) : Int) ≤ now
    let toggles := s.lastBlinkUs + 500000 ≤ now
    let on := if toggles then !s.blinkOn else s.blinkOn
    (¬due → s.pacerCheck now = s) ∧
    (due → ∃ f : Frame, s.pacerCheck now = { s with
        lastPresentUs := now
        lastBlinkUs := if toggles then now else s.lastBlinkUs
        blinkOn := on
        presented := s.presented ++ [f] } ∧
      f.width = s.width ∧ f.height = s.height ∧ f.curX = s.curX ∧ f.curY = s.curY ∧ f.blinkOn = on ∧
      f.pixels.length = s.height ∧ f.picture.length = s.height ∧
      (∀ row ∈ f.pixels ++ f.picture, row.length = s.width) ∧
      ∀ x y : Nat, x < s.width → y < s.height →
        let colour := Config.masterTable (s.fb.read (y * s.width + x))
        (f.pixels[y]?.bind (·[x]?)) = some colour ∧
        (f.picture[y]?.bind (·[x]?)) = some
          (if on then Config.cursorShape s.width s.height s.curX s.curY x y colour else colour))
end

