-- ==== Sys2Proof/Laws/Memory.lean ====
section
/-! SUPPORT. What a read gives after each operation on the framebuffer space, and that each operation keeps
the canonical form. -/

namespace Sys2Proof.Machine

/-! Reads. They hold of every list of pairs, canonical or not. -/

@[simp] theorem Memory.read_nil (a : Nat) : Memory.read [] a = Memory.blank := rfl

theorem Memory.read_cons (b : Nat) (c : Pixel) (t : Memory) (a : Nat) :
    Memory.read ((b, c) :: t) a = if a = b then c else Memory.read t a := rfl

theorem Memory.read_append (m n : Memory) (a : Nat) :
    Memory.read (m ++ n) a = if a ∈ m.map Prod.fst then Memory.read m a else Memory.read n a := by
  induction m with
  | nil => simp
  | cons p t ih =>
    obtain ⟨b, c⟩ := p
    by_cases h : a = b <;> simp [Memory.read_cons, h, ih]

theorem Memory.read_insert (m : Memory) (a b : Nat) (c : Pixel) (h : b ∈ m.map Prod.fst → b ≠ a) :
    Memory.read (Memory.insert a c m) b = if b = a then c else Memory.read m b := by
  induction m with
  | nil => simp [Memory.insert, Memory.read_cons]
  | cons p t ih =>
    obtain ⟨d, e⟩ := p
    have ht : b ∈ t.map Prod.fst → b ≠ a := fun hb => h (List.mem_cons_of_mem _ hb)
    have hd : b = d → b ≠ a := fun hb => h (by simp [hb])
    unfold Memory.insert
    by_cases hlt : a < d
    · simp [hlt, Memory.read_cons]
    · by_cases hbd : b = d
      · simp [hlt, Memory.read_cons, hbd, hbd ▸ hd hbd]
      · simp [hlt, Memory.read_cons, hbd, ih ht]

theorem Memory.read_filter_ne (m : Memory) (a b : Nat) :
    Memory.read (m.filter fun p => p.1 != a) b = if b = a then Memory.blank else Memory.read m b := by
  induction m with
  | nil => simp
  | cons p t ih =>
    obtain ⟨d, e⟩ := p
    by_cases hd : d = a
    · by_cases hb : b = a
      · subst hb; simpa [hd] using ih
      · simp [hd, ih, hb, Memory.read_cons]
    · by_cases hb : b = d
      · subst hb; simp [hd, Memory.read_cons]
      · simp [hd, ih, hb, Memory.read_cons]

/-- A read after a write. -/
theorem Memory.read_write (m : Memory) (a b : Nat) (c : Pixel) :
    (m.write a c).read b = if b = a then c else m.read b := by
  unfold Memory.write
  by_cases hc : c = Memory.blank
  · simp [hc, Memory.read_filter_ne]
  · simp only [hc, if_false]
    rw [Memory.read_insert]
    · by_cases hb : b = a <;> simp [hb, Memory.read_filter_ne]
    · simp only [List.mem_map, List.mem_filter]
      rintro ⟨p, ⟨-, hp⟩, rfl⟩
      simpa using hp

theorem Memory.read_map_range (start n : Nat) (c : Pixel) (a : Nat) :
    Memory.read ((List.range n).map fun i => (start + i, c)) a
      = if start ≤ a ∧ a < start + n then c else Memory.blank := by
  induction n with
  | zero => simp
  | succ n ih =>
    rw [List.range_succ, List.map_append, Memory.read_append, ih]
    by_cases h1 : start ≤ a ∧ a < start + n
    · have : a ∈ List.map Prod.fst (List.map (fun i => (start + i, c)) (List.range n)) := by
        simp only [List.map_map, List.mem_map, List.mem_range, Function.comp_apply]
        exact ⟨a - start, by omega, by omega⟩
      rw [if_pos this, if_pos h1, if_pos (by omega)]
    · have : a ∉ List.map Prod.fst (List.map (fun i => (start + i, c)) (List.range n)) := by
        simp only [List.map_map, List.mem_map, List.mem_range, Function.comp_apply, not_exists, not_and]
        intro x hx; omega
      rw [if_neg this]
      by_cases h2 : a = start + n
      · simp [Memory.read_cons, h2]
      · simp only [List.map_cons, List.map_nil, Memory.read_cons, if_neg h2, Memory.read_nil]
        rw [if_neg (by omega)]

/-- A read of a band. -/
theorem Memory.read_band (start n : Nat) (c : Pixel) (a : Nat) :
    (Memory.band start n c).read a = if start ≤ a ∧ a < start + n then c else Memory.blank := by
  unfold Memory.band
  by_cases hc : c = Memory.blank
  · simp [hc]
  · simp only [hc, if_false, Memory.read_map_range]

/-- A read of a filled space. -/
theorem Memory.read_fill (n : Nat) (c : Pixel) (a : Nat) :
    (Memory.fill n c).read a = if a < n then c else Memory.blank := by
  simp [Memory.fill, Memory.read_band]

theorem Memory.read_shift (m : Memory) (k top a : Nat) :
    Memory.read (m.filterMap fun p => if k ≤ p.1 ∧ p.1 < top then some (p.1 - k, p.2) else none) a
      = if a + k < top then m.read (a + k) else Memory.blank := by
  induction m with
  | nil => simp
  | cons p t ih =>
    obtain ⟨b, c⟩ := p
    by_cases h : k ≤ b ∧ b < top
    · rw [List.filterMap_cons_some (by rw [if_pos h]), Memory.read_cons, ih, Memory.read_cons]
      by_cases hb : a = b - k
      · rw [if_pos hb, if_pos (by omega), if_pos (by omega)]
      · rw [if_neg hb, if_neg (by omega : ¬ a + k = b)]
    · rw [List.filterMap_cons_none (by rw [if_neg h]), ih, Memory.read_cons]
      by_cases hb : a + k = b
      · rw [if_neg (by omega), if_neg (by omega)]
      · rw [if_neg hb]

theorem Memory.mem_keys_shift (m : Memory) (k top a : Nat)
    (h : a ∈ List.map Prod.fst
      (m.filterMap fun p => if k ≤ p.1 ∧ p.1 < top then some (p.1 - k, p.2) else none)) :
    a + k < top := by
  simp only [List.mem_map, List.mem_filterMap] at h
  obtain ⟨q, ⟨p, -, hp⟩, rfl⟩ := h
  split at hp
  · cases hp; dsimp; omega
  · cases hp

/-- A read after a scroll by `ov ≤ h` rows, at any address. -/
theorem Memory.read_scroll (m : Memory) (w h ov : Nat) (c : Pixel) (hov : ov ≤ h) (a : Nat) :
    (m.scroll w h ov c).read a
      = if a < (h - ov) * w then m.read (a + ov * w) else if a < h * w then c else Memory.blank := by
  have hsplit : (h - ov) * w + ov * w = h * w := by rw [← Nat.add_mul, Nat.sub_add_cancel hov]
  unfold Memory.scroll
  rw [Memory.read_append, Memory.read_shift, Memory.read_band]
  by_cases hk : a ∈ List.map Prod.fst
      (m.filterMap fun p => if ov * w ≤ p.1 ∧ p.1 < h * w then some (p.1 - ov * w, p.2) else none)
  · have := Memory.mem_keys_shift _ _ _ _ hk
    rw [if_pos hk, if_pos this, if_pos (by omega)]
  · rw [if_neg hk]
    by_cases ha : a < (h - ov) * w
    · rw [if_neg (by omega), if_pos ha]
      have h2 := Memory.read_shift m (ov * w) (h * w) a
      rw [if_pos (by omega)] at h2
      rw [← h2]
      generalize m.filterMap _ = l at hk
      clear h2
      induction l with
      | nil => rfl
      | cons p t ih =>
        obtain ⟨b, d⟩ := p
        simp only [List.map_cons, List.mem_cons, not_or] at hk
        rw [Memory.read_cons, if_neg hk.1]
        exact ih hk.2
    · rw [if_neg ha]
      by_cases hb : a < h * w
      · rw [if_pos (by omega), if_pos hb]
      · rw [if_neg (by omega), if_neg hb]

/-! The canonical form. -/

theorem Memory.wf_nil (size : Nat) : Memory.wf size [] := by simp [Memory.wf]

theorem Memory.wf_band (start n size : Nat) (c : Pixel) (h : start + n ≤ size) :
    Memory.wf size (Memory.band start n c) := by
  unfold Memory.band
  by_cases hc : c = Memory.blank
  · simpa [hc] using Memory.wf_nil size
  · simp only [hc, if_false, Memory.wf]
    refine ⟨?_, ?_⟩
    · rw [List.pairwise_map]
      exact List.pairwise_lt_range.imp (by intro a b hab; dsimp; omega)
    · intro p hp
      simp only [List.mem_map, List.mem_range] at hp
      obtain ⟨i, hi, rfl⟩ := hp
      exact ⟨by dsimp; omega, hc⟩

/-- A filled space is in canonical form. -/
theorem Memory.wf_fill (n : Nat) (c : Pixel) : Memory.wf n (Memory.fill n c) :=
  Memory.wf_band 0 n n c (by omega)

theorem Memory.mem_insert (m : Memory) (a : Nat) (c : Pixel) (p : Nat × Pixel) :
    p ∈ Memory.insert a c m ↔ p = (a, c) ∨ p ∈ m := by
  induction m with
  | nil => simp [Memory.insert]
  | cons q t ih =>
    obtain ⟨b, d⟩ := q
    unfold Memory.insert
    by_cases h : a < b
    · simp [h]
    · simp only [h, if_false, List.mem_cons, ih]; tauto

theorem Memory.pairwise_insert (m : Memory) (a : Nat) (c : Pixel)
    (hm : m.Pairwise fun p q => p.1 < q.1) (ha : ∀ p ∈ m, p.1 ≠ a) :
    (Memory.insert a c m).Pairwise fun p q => p.1 < q.1 := by
  induction m with
  | nil => simp [Memory.insert]
  | cons q t ih =>
    obtain ⟨b, d⟩ := q
    rw [List.pairwise_cons] at hm
    unfold Memory.insert
    by_cases h : a < b
    · rw [if_pos h, List.pairwise_cons]
      refine ⟨?_, List.pairwise_cons.2 hm⟩
      intro p hp
      rcases List.mem_cons.1 hp with rfl | hp
      · exact h
      · exact lt_trans h (hm.1 p hp)
    · rw [if_neg h, List.pairwise_cons]
      refine ⟨?_, ih hm.2 fun p hp => ha p (List.mem_cons_of_mem _ hp)⟩
      intro p hp
      rcases (Memory.mem_insert t a c p).1 hp with rfl | hp
      · have := ha (b, d) (by simp); dsimp at this ⊢; omega
      · exact hm.1 p hp

/-- A write inside the space keeps the canonical form. -/
theorem Memory.wf_write (size : Nat) (m : Memory) (a : Nat) (c : Pixel) (hm : Memory.wf size m)
    (ha : a < size) : Memory.wf size (m.write a c) := by
  obtain ⟨hs, hv⟩ := hm
  have hs' : (m.filter fun p => p.1 != a).Pairwise fun p q => p.1 < q.1 := hs.filter _
  unfold Memory.write
  by_cases hc : c = Memory.blank
  · simp only [hc, if_true]
    exact ⟨hs', fun p hp => hv p (List.mem_of_mem_filter hp)⟩
  · simp only [hc, if_false]
    refine ⟨Memory.pairwise_insert _ a c hs' ?_, ?_⟩
    · intro p hp
      simpa using (List.mem_filter.1 hp).2
    · intro p hp
      rcases (Memory.mem_insert _ a c p).1 hp with rfl | hp
      · exact ⟨ha, hc⟩
      · exact hv p (List.mem_of_mem_filter hp)

/-- A scroll keeps the canonical form. -/
theorem Memory.wf_scroll (m : Memory) (w h ov : Nat) (c : Pixel) (hov : ov ≤ h)
    (hm : Memory.wf (w * h) m) : Memory.wf (w * h) (m.scroll w h ov c) := by
  obtain ⟨hs, hv⟩ := hm
  have hsplit : (h - ov) * w + ov * w = w * h := by
    rw [← Nat.add_mul, Nat.sub_add_cancel hov, Nat.mul_comm]
  have hband := Memory.wf_band ((h - ov) * w) (ov * w) (w * h) c (by omega)
  have hmem : ∀ q ∈ m.filterMap
      (fun p => if ov * w ≤ p.1 ∧ p.1 < h * w then some (p.1 - ov * w, p.2) else none),
      q.1 < (h - ov) * w ∧ q.2 ≠ Memory.blank := by
    intro q hq
    obtain ⟨p, hp, hq⟩ := List.mem_filterMap.1 hq
    rw [Nat.mul_comm h w] at hq
    split at hq
    · cases hq; exact ⟨by dsimp; omega, (hv p hp).2⟩
    · cases hq
  unfold Memory.scroll
  refine ⟨?_, ?_⟩
  · rw [List.pairwise_append]
    refine ⟨?_, hband.1, ?_⟩
    · rw [List.pairwise_filterMap]
      refine hs.imp ?_
      intro p q hpq p' hp' q' hq'
      split at hp' <;> split at hq' <;> simp_all
      obtain rfl := hp'; obtain rfl := hq'
      dsimp; omega
    · intro p hp q hq
      have h1 := (hmem p hp).1
      unfold Memory.band at hq
      split at hq
      · cases hq
      · obtain ⟨i, -, rfl⟩ := List.mem_map.1 hq
        dsimp; omega
  · intro p hp
    rcases List.mem_append.1 hp with hp | hp
    · have := hmem p hp
      exact ⟨by omega, this.2⟩
    · exact hband.2 p hp

end Sys2Proof.Machine
end

