-- ==== Sys2Proof/Laws/State.lean ====
section
/-! SUPPORT. What each named update of the state does to each field: one lemma a field, all by rfl. -/

namespace Sys2Proof.Machine

section setFb

variable (s : State) (m : Memory)

@[simp] theorem State.setFb_mode : (s.setFb m).mode = s.mode := rfl
@[simp] theorem State.setFb_fb : (s.setFb m).fb = m := rfl
@[simp] theorem State.setFb_curX : (s.setFb m).curX = s.curX := rfl
@[simp] theorem State.setFb_curY : (s.setFb m).curY = s.curY := rfl
@[simp] theorem State.setFb_fg : (s.setFb m).fg = s.fg := rfl
@[simp] theorem State.setFb_bg : (s.setFb m).bg = s.bg := rfl
@[simp] theorem State.setFb_gcol : (s.setFb m).gcol = s.gcol := rfl
@[simp] theorem State.setFb_hist : (s.setFb m).hist = s.hist := rfl
@[simp] theorem State.setFb_origin : (s.setFb m).origin = s.origin := rfl
@[simp] theorem State.setFb_logical : (s.setFb m).logical = s.logical := rfl
@[simp] theorem State.setFb_glyphs : (s.setFb m).glyphs = s.glyphs := rfl
@[simp] theorem State.setFb_lastPresentUs : (s.setFb m).lastPresentUs = s.lastPresentUs := rfl
@[simp] theorem State.setFb_lastBlinkUs : (s.setFb m).lastBlinkUs = s.lastBlinkUs := rfl
@[simp] theorem State.setFb_blinkOn : (s.setFb m).blinkOn = s.blinkOn := rfl
@[simp] theorem State.setFb_dec : (s.setFb m).dec = s.dec := rfl
@[simp] theorem State.setFb_halted : (s.setFb m).halted = s.halted := rfl
@[simp] theorem State.setFb_inq : (s.setFb m).inq = s.inq := rfl
@[simp] theorem State.setFb_inConnected : (s.setFb m).inConnected = s.inConnected := rfl
@[simp] theorem State.setFb_outq : (s.setFb m).outq = s.outq := rfl
@[simp] theorem State.setFb_outConnected : (s.setFb m).outConnected = s.outConnected := rfl
@[simp] theorem State.setFb_presented : (s.setFb m).presented = s.presented := rfl
@[simp] theorem State.setFb_diagLog : (s.setFb m).diagLog = s.diagLog := rfl
@[simp] theorem State.setFb_boot : (s.setFb m).boot = s.boot := rfl
@[simp] theorem State.setFb_env : (s.setFb m).env = s.env := rfl
@[simp] theorem State.setFb_clock : (s.setFb m).clock = s.clock := rfl
@[simp] theorem State.setFb_allocAnswers : (s.setFb m).allocAnswers = s.allocAnswers := rfl
@[simp] theorem State.setFb_draws : (s.setFb m).draws = s.draws := rfl
@[simp] theorem State.setFb_width : (s.setFb m).width = s.width := rfl
@[simp] theorem State.setFb_height : (s.setFb m).height = s.height := rfl
@[simp] theorem State.setFb_fbSize : (s.setFb m).fbSize = s.fbSize := rfl
@[simp] theorem State.setFb_refreshHz : (s.setFb m).refreshHz = s.refreshHz := rfl
@[simp] theorem State.setFb_cols : (s.setFb m).cols = s.cols := rfl
@[simp] theorem State.setFb_rows : (s.setFb m).rows = s.rows := rfl

end setFb

section setCursor

variable (s : State) (x y : Int)

@[simp] theorem State.setCursor_mode : (s.setCursor x y).mode = s.mode := rfl
@[simp] theorem State.setCursor_fb : (s.setCursor x y).fb = s.fb := rfl
@[simp] theorem State.setCursor_curX : (s.setCursor x y).curX = x := rfl
@[simp] theorem State.setCursor_curY : (s.setCursor x y).curY = y := rfl
@[simp] theorem State.setCursor_fg : (s.setCursor x y).fg = s.fg := rfl
@[simp] theorem State.setCursor_bg : (s.setCursor x y).bg = s.bg := rfl
@[simp] theorem State.setCursor_gcol : (s.setCursor x y).gcol = s.gcol := rfl
@[simp] theorem State.setCursor_hist : (s.setCursor x y).hist = s.hist := rfl
@[simp] theorem State.setCursor_origin : (s.setCursor x y).origin = s.origin := rfl
@[simp] theorem State.setCursor_logical : (s.setCursor x y).logical = s.logical := rfl
@[simp] theorem State.setCursor_glyphs : (s.setCursor x y).glyphs = s.glyphs := rfl
@[simp] theorem State.setCursor_lastPresentUs : (s.setCursor x y).lastPresentUs = s.lastPresentUs := rfl
@[simp] theorem State.setCursor_lastBlinkUs : (s.setCursor x y).lastBlinkUs = s.lastBlinkUs := rfl
@[simp] theorem State.setCursor_blinkOn : (s.setCursor x y).blinkOn = s.blinkOn := rfl
@[simp] theorem State.setCursor_dec : (s.setCursor x y).dec = s.dec := rfl
@[simp] theorem State.setCursor_halted : (s.setCursor x y).halted = s.halted := rfl
@[simp] theorem State.setCursor_inq : (s.setCursor x y).inq = s.inq := rfl
@[simp] theorem State.setCursor_inConnected : (s.setCursor x y).inConnected = s.inConnected := rfl
@[simp] theorem State.setCursor_outq : (s.setCursor x y).outq = s.outq := rfl
@[simp] theorem State.setCursor_outConnected : (s.setCursor x y).outConnected = s.outConnected := rfl
@[simp] theorem State.setCursor_presented : (s.setCursor x y).presented = s.presented := rfl
@[simp] theorem State.setCursor_diagLog : (s.setCursor x y).diagLog = s.diagLog := rfl
@[simp] theorem State.setCursor_boot : (s.setCursor x y).boot = s.boot := rfl
@[simp] theorem State.setCursor_env : (s.setCursor x y).env = s.env := rfl
@[simp] theorem State.setCursor_clock : (s.setCursor x y).clock = s.clock := rfl
@[simp] theorem State.setCursor_allocAnswers : (s.setCursor x y).allocAnswers = s.allocAnswers := rfl
@[simp] theorem State.setCursor_draws : (s.setCursor x y).draws = s.draws := rfl
@[simp] theorem State.setCursor_width : (s.setCursor x y).width = s.width := rfl
@[simp] theorem State.setCursor_height : (s.setCursor x y).height = s.height := rfl
@[simp] theorem State.setCursor_fbSize : (s.setCursor x y).fbSize = s.fbSize := rfl
@[simp] theorem State.setCursor_refreshHz : (s.setCursor x y).refreshHz = s.refreshHz := rfl
@[simp] theorem State.setCursor_cols : (s.setCursor x y).cols = s.cols := rfl
@[simp] theorem State.setCursor_rows : (s.setCursor x y).rows = s.rows := rfl

end setCursor

section setFg

variable (s : State) (c : Pixel)

@[simp] theorem State.setFg_mode : (s.setFg c).mode = s.mode := rfl
@[simp] theorem State.setFg_fb : (s.setFg c).fb = s.fb := rfl
@[simp] theorem State.setFg_curX : (s.setFg c).curX = s.curX := rfl
@[simp] theorem State.setFg_curY : (s.setFg c).curY = s.curY := rfl
@[simp] theorem State.setFg_fg : (s.setFg c).fg = c := rfl
@[simp] theorem State.setFg_bg : (s.setFg c).bg = s.bg := rfl
@[simp] theorem State.setFg_gcol : (s.setFg c).gcol = s.gcol := rfl
@[simp] theorem State.setFg_hist : (s.setFg c).hist = s.hist := rfl
@[simp] theorem State.setFg_origin : (s.setFg c).origin = s.origin := rfl
@[simp] theorem State.setFg_logical : (s.setFg c).logical = s.logical := rfl
@[simp] theorem State.setFg_glyphs : (s.setFg c).glyphs = s.glyphs := rfl
@[simp] theorem State.setFg_lastPresentUs : (s.setFg c).lastPresentUs = s.lastPresentUs := rfl
@[simp] theorem State.setFg_lastBlinkUs : (s.setFg c).lastBlinkUs = s.lastBlinkUs := rfl
@[simp] theorem State.setFg_blinkOn : (s.setFg c).blinkOn = s.blinkOn := rfl
@[simp] theorem State.setFg_dec : (s.setFg c).dec = s.dec := rfl
@[simp] theorem State.setFg_halted : (s.setFg c).halted = s.halted := rfl
@[simp] theorem State.setFg_inq : (s.setFg c).inq = s.inq := rfl
@[simp] theorem State.setFg_inConnected : (s.setFg c).inConnected = s.inConnected := rfl
@[simp] theorem State.setFg_outq : (s.setFg c).outq = s.outq := rfl
@[simp] theorem State.setFg_outConnected : (s.setFg c).outConnected = s.outConnected := rfl
@[simp] theorem State.setFg_presented : (s.setFg c).presented = s.presented := rfl
@[simp] theorem State.setFg_diagLog : (s.setFg c).diagLog = s.diagLog := rfl
@[simp] theorem State.setFg_boot : (s.setFg c).boot = s.boot := rfl
@[simp] theorem State.setFg_env : (s.setFg c).env = s.env := rfl
@[simp] theorem State.setFg_clock : (s.setFg c).clock = s.clock := rfl
@[simp] theorem State.setFg_allocAnswers : (s.setFg c).allocAnswers = s.allocAnswers := rfl
@[simp] theorem State.setFg_draws : (s.setFg c).draws = s.draws := rfl
@[simp] theorem State.setFg_width : (s.setFg c).width = s.width := rfl
@[simp] theorem State.setFg_height : (s.setFg c).height = s.height := rfl
@[simp] theorem State.setFg_fbSize : (s.setFg c).fbSize = s.fbSize := rfl
@[simp] theorem State.setFg_refreshHz : (s.setFg c).refreshHz = s.refreshHz := rfl
@[simp] theorem State.setFg_cols : (s.setFg c).cols = s.cols := rfl
@[simp] theorem State.setFg_rows : (s.setFg c).rows = s.rows := rfl

end setFg

section setBg

variable (s : State) (c : Pixel)

@[simp] theorem State.setBg_mode : (s.setBg c).mode = s.mode := rfl
@[simp] theorem State.setBg_fb : (s.setBg c).fb = s.fb := rfl
@[simp] theorem State.setBg_curX : (s.setBg c).curX = s.curX := rfl
@[simp] theorem State.setBg_curY : (s.setBg c).curY = s.curY := rfl
@[simp] theorem State.setBg_fg : (s.setBg c).fg = s.fg := rfl
@[simp] theorem State.setBg_bg : (s.setBg c).bg = c := rfl
@[simp] theorem State.setBg_gcol : (s.setBg c).gcol = s.gcol := rfl
@[simp] theorem State.setBg_hist : (s.setBg c).hist = s.hist := rfl
@[simp] theorem State.setBg_origin : (s.setBg c).origin = s.origin := rfl
@[simp] theorem State.setBg_logical : (s.setBg c).logical = s.logical := rfl
@[simp] theorem State.setBg_glyphs : (s.setBg c).glyphs = s.glyphs := rfl
@[simp] theorem State.setBg_lastPresentUs : (s.setBg c).lastPresentUs = s.lastPresentUs := rfl
@[simp] theorem State.setBg_lastBlinkUs : (s.setBg c).lastBlinkUs = s.lastBlinkUs := rfl
@[simp] theorem State.setBg_blinkOn : (s.setBg c).blinkOn = s.blinkOn := rfl
@[simp] theorem State.setBg_dec : (s.setBg c).dec = s.dec := rfl
@[simp] theorem State.setBg_halted : (s.setBg c).halted = s.halted := rfl
@[simp] theorem State.setBg_inq : (s.setBg c).inq = s.inq := rfl
@[simp] theorem State.setBg_inConnected : (s.setBg c).inConnected = s.inConnected := rfl
@[simp] theorem State.setBg_outq : (s.setBg c).outq = s.outq := rfl
@[simp] theorem State.setBg_outConnected : (s.setBg c).outConnected = s.outConnected := rfl
@[simp] theorem State.setBg_presented : (s.setBg c).presented = s.presented := rfl
@[simp] theorem State.setBg_diagLog : (s.setBg c).diagLog = s.diagLog := rfl
@[simp] theorem State.setBg_boot : (s.setBg c).boot = s.boot := rfl
@[simp] theorem State.setBg_env : (s.setBg c).env = s.env := rfl
@[simp] theorem State.setBg_clock : (s.setBg c).clock = s.clock := rfl
@[simp] theorem State.setBg_allocAnswers : (s.setBg c).allocAnswers = s.allocAnswers := rfl
@[simp] theorem State.setBg_draws : (s.setBg c).draws = s.draws := rfl
@[simp] theorem State.setBg_width : (s.setBg c).width = s.width := rfl
@[simp] theorem State.setBg_height : (s.setBg c).height = s.height := rfl
@[simp] theorem State.setBg_fbSize : (s.setBg c).fbSize = s.fbSize := rfl
@[simp] theorem State.setBg_refreshHz : (s.setBg c).refreshHz = s.refreshHz := rfl
@[simp] theorem State.setBg_cols : (s.setBg c).cols = s.cols := rfl
@[simp] theorem State.setBg_rows : (s.setBg c).rows = s.rows := rfl

end setBg

section setGcol

variable (s : State) (c : Pixel)

@[simp] theorem State.setGcol_mode : (s.setGcol c).mode = s.mode := rfl
@[simp] theorem State.setGcol_fb : (s.setGcol c).fb = s.fb := rfl
@[simp] theorem State.setGcol_curX : (s.setGcol c).curX = s.curX := rfl
@[simp] theorem State.setGcol_curY : (s.setGcol c).curY = s.curY := rfl
@[simp] theorem State.setGcol_fg : (s.setGcol c).fg = s.fg := rfl
@[simp] theorem State.setGcol_bg : (s.setGcol c).bg = s.bg := rfl
@[simp] theorem State.setGcol_gcol : (s.setGcol c).gcol = c := rfl
@[simp] theorem State.setGcol_hist : (s.setGcol c).hist = s.hist := rfl
@[simp] theorem State.setGcol_origin : (s.setGcol c).origin = s.origin := rfl
@[simp] theorem State.setGcol_logical : (s.setGcol c).logical = s.logical := rfl
@[simp] theorem State.setGcol_glyphs : (s.setGcol c).glyphs = s.glyphs := rfl
@[simp] theorem State.setGcol_lastPresentUs : (s.setGcol c).lastPresentUs = s.lastPresentUs := rfl
@[simp] theorem State.setGcol_lastBlinkUs : (s.setGcol c).lastBlinkUs = s.lastBlinkUs := rfl
@[simp] theorem State.setGcol_blinkOn : (s.setGcol c).blinkOn = s.blinkOn := rfl
@[simp] theorem State.setGcol_dec : (s.setGcol c).dec = s.dec := rfl
@[simp] theorem State.setGcol_halted : (s.setGcol c).halted = s.halted := rfl
@[simp] theorem State.setGcol_inq : (s.setGcol c).inq = s.inq := rfl
@[simp] theorem State.setGcol_inConnected : (s.setGcol c).inConnected = s.inConnected := rfl
@[simp] theorem State.setGcol_outq : (s.setGcol c).outq = s.outq := rfl
@[simp] theorem State.setGcol_outConnected : (s.setGcol c).outConnected = s.outConnected := rfl
@[simp] theorem State.setGcol_presented : (s.setGcol c).presented = s.presented := rfl
@[simp] theorem State.setGcol_diagLog : (s.setGcol c).diagLog = s.diagLog := rfl
@[simp] theorem State.setGcol_boot : (s.setGcol c).boot = s.boot := rfl
@[simp] theorem State.setGcol_env : (s.setGcol c).env = s.env := rfl
@[simp] theorem State.setGcol_clock : (s.setGcol c).clock = s.clock := rfl
@[simp] theorem State.setGcol_allocAnswers : (s.setGcol c).allocAnswers = s.allocAnswers := rfl
@[simp] theorem State.setGcol_draws : (s.setGcol c).draws = s.draws := rfl
@[simp] theorem State.setGcol_width : (s.setGcol c).width = s.width := rfl
@[simp] theorem State.setGcol_height : (s.setGcol c).height = s.height := rfl
@[simp] theorem State.setGcol_fbSize : (s.setGcol c).fbSize = s.fbSize := rfl
@[simp] theorem State.setGcol_refreshHz : (s.setGcol c).refreshHz = s.refreshHz := rfl
@[simp] theorem State.setGcol_cols : (s.setGcol c).cols = s.cols := rfl
@[simp] theorem State.setGcol_rows : (s.setGcol c).rows = s.rows := rfl

end setGcol

section setHist

variable (s : State) (h : History)

@[simp] theorem State.setHist_mode : (s.setHist h).mode = s.mode := rfl
@[simp] theorem State.setHist_fb : (s.setHist h).fb = s.fb := rfl
@[simp] theorem State.setHist_curX : (s.setHist h).curX = s.curX := rfl
@[simp] theorem State.setHist_curY : (s.setHist h).curY = s.curY := rfl
@[simp] theorem State.setHist_fg : (s.setHist h).fg = s.fg := rfl
@[simp] theorem State.setHist_bg : (s.setHist h).bg = s.bg := rfl
@[simp] theorem State.setHist_gcol : (s.setHist h).gcol = s.gcol := rfl
@[simp] theorem State.setHist_hist : (s.setHist h).hist = h := rfl
@[simp] theorem State.setHist_origin : (s.setHist h).origin = s.origin := rfl
@[simp] theorem State.setHist_logical : (s.setHist h).logical = s.logical := rfl
@[simp] theorem State.setHist_glyphs : (s.setHist h).glyphs = s.glyphs := rfl
@[simp] theorem State.setHist_lastPresentUs : (s.setHist h).lastPresentUs = s.lastPresentUs := rfl
@[simp] theorem State.setHist_lastBlinkUs : (s.setHist h).lastBlinkUs = s.lastBlinkUs := rfl
@[simp] theorem State.setHist_blinkOn : (s.setHist h).blinkOn = s.blinkOn := rfl
@[simp] theorem State.setHist_dec : (s.setHist h).dec = s.dec := rfl
@[simp] theorem State.setHist_halted : (s.setHist h).halted = s.halted := rfl
@[simp] theorem State.setHist_inq : (s.setHist h).inq = s.inq := rfl
@[simp] theorem State.setHist_inConnected : (s.setHist h).inConnected = s.inConnected := rfl
@[simp] theorem State.setHist_outq : (s.setHist h).outq = s.outq := rfl
@[simp] theorem State.setHist_outConnected : (s.setHist h).outConnected = s.outConnected := rfl
@[simp] theorem State.setHist_presented : (s.setHist h).presented = s.presented := rfl
@[simp] theorem State.setHist_diagLog : (s.setHist h).diagLog = s.diagLog := rfl
@[simp] theorem State.setHist_boot : (s.setHist h).boot = s.boot := rfl
@[simp] theorem State.setHist_env : (s.setHist h).env = s.env := rfl
@[simp] theorem State.setHist_clock : (s.setHist h).clock = s.clock := rfl
@[simp] theorem State.setHist_allocAnswers : (s.setHist h).allocAnswers = s.allocAnswers := rfl
@[simp] theorem State.setHist_draws : (s.setHist h).draws = s.draws := rfl
@[simp] theorem State.setHist_width : (s.setHist h).width = s.width := rfl
@[simp] theorem State.setHist_height : (s.setHist h).height = s.height := rfl
@[simp] theorem State.setHist_fbSize : (s.setHist h).fbSize = s.fbSize := rfl
@[simp] theorem State.setHist_refreshHz : (s.setHist h).refreshHz = s.refreshHz := rfl
@[simp] theorem State.setHist_cols : (s.setHist h).cols = s.cols := rfl
@[simp] theorem State.setHist_rows : (s.setHist h).rows = s.rows := rfl

end setHist

section setOrigin

variable (s : State) (p : Point)

@[simp] theorem State.setOrigin_mode : (s.setOrigin p).mode = s.mode := rfl
@[simp] theorem State.setOrigin_fb : (s.setOrigin p).fb = s.fb := rfl
@[simp] theorem State.setOrigin_curX : (s.setOrigin p).curX = s.curX := rfl
@[simp] theorem State.setOrigin_curY : (s.setOrigin p).curY = s.curY := rfl
@[simp] theorem State.setOrigin_fg : (s.setOrigin p).fg = s.fg := rfl
@[simp] theorem State.setOrigin_bg : (s.setOrigin p).bg = s.bg := rfl
@[simp] theorem State.setOrigin_gcol : (s.setOrigin p).gcol = s.gcol := rfl
@[simp] theorem State.setOrigin_hist : (s.setOrigin p).hist = s.hist := rfl
@[simp] theorem State.setOrigin_origin : (s.setOrigin p).origin = p := rfl
@[simp] theorem State.setOrigin_logical : (s.setOrigin p).logical = s.logical := rfl
@[simp] theorem State.setOrigin_glyphs : (s.setOrigin p).glyphs = s.glyphs := rfl
@[simp] theorem State.setOrigin_lastPresentUs : (s.setOrigin p).lastPresentUs = s.lastPresentUs := rfl
@[simp] theorem State.setOrigin_lastBlinkUs : (s.setOrigin p).lastBlinkUs = s.lastBlinkUs := rfl
@[simp] theorem State.setOrigin_blinkOn : (s.setOrigin p).blinkOn = s.blinkOn := rfl
@[simp] theorem State.setOrigin_dec : (s.setOrigin p).dec = s.dec := rfl
@[simp] theorem State.setOrigin_halted : (s.setOrigin p).halted = s.halted := rfl
@[simp] theorem State.setOrigin_inq : (s.setOrigin p).inq = s.inq := rfl
@[simp] theorem State.setOrigin_inConnected : (s.setOrigin p).inConnected = s.inConnected := rfl
@[simp] theorem State.setOrigin_outq : (s.setOrigin p).outq = s.outq := rfl
@[simp] theorem State.setOrigin_outConnected : (s.setOrigin p).outConnected = s.outConnected := rfl
@[simp] theorem State.setOrigin_presented : (s.setOrigin p).presented = s.presented := rfl
@[simp] theorem State.setOrigin_diagLog : (s.setOrigin p).diagLog = s.diagLog := rfl
@[simp] theorem State.setOrigin_boot : (s.setOrigin p).boot = s.boot := rfl
@[simp] theorem State.setOrigin_env : (s.setOrigin p).env = s.env := rfl
@[simp] theorem State.setOrigin_clock : (s.setOrigin p).clock = s.clock := rfl
@[simp] theorem State.setOrigin_allocAnswers : (s.setOrigin p).allocAnswers = s.allocAnswers := rfl
@[simp] theorem State.setOrigin_draws : (s.setOrigin p).draws = s.draws := rfl
@[simp] theorem State.setOrigin_width : (s.setOrigin p).width = s.width := rfl
@[simp] theorem State.setOrigin_height : (s.setOrigin p).height = s.height := rfl
@[simp] theorem State.setOrigin_fbSize : (s.setOrigin p).fbSize = s.fbSize := rfl
@[simp] theorem State.setOrigin_refreshHz : (s.setOrigin p).refreshHz = s.refreshHz := rfl
@[simp] theorem State.setOrigin_cols : (s.setOrigin p).cols = s.cols := rfl
@[simp] theorem State.setOrigin_rows : (s.setOrigin p).rows = s.rows := rfl

end setOrigin

section setLogical

variable (s : State) (b : Bool)

@[simp] theorem State.setLogical_mode : (s.setLogical b).mode = s.mode := rfl
@[simp] theorem State.setLogical_fb : (s.setLogical b).fb = s.fb := rfl
@[simp] theorem State.setLogical_curX : (s.setLogical b).curX = s.curX := rfl
@[simp] theorem State.setLogical_curY : (s.setLogical b).curY = s.curY := rfl
@[simp] theorem State.setLogical_fg : (s.setLogical b).fg = s.fg := rfl
@[simp] theorem State.setLogical_bg : (s.setLogical b).bg = s.bg := rfl
@[simp] theorem State.setLogical_gcol : (s.setLogical b).gcol = s.gcol := rfl
@[simp] theorem State.setLogical_hist : (s.setLogical b).hist = s.hist := rfl
@[simp] theorem State.setLogical_origin : (s.setLogical b).origin = s.origin := rfl
@[simp] theorem State.setLogical_logical : (s.setLogical b).logical = b := rfl
@[simp] theorem State.setLogical_glyphs : (s.setLogical b).glyphs = s.glyphs := rfl
@[simp] theorem State.setLogical_lastPresentUs : (s.setLogical b).lastPresentUs = s.lastPresentUs := rfl
@[simp] theorem State.setLogical_lastBlinkUs : (s.setLogical b).lastBlinkUs = s.lastBlinkUs := rfl
@[simp] theorem State.setLogical_blinkOn : (s.setLogical b).blinkOn = s.blinkOn := rfl
@[simp] theorem State.setLogical_dec : (s.setLogical b).dec = s.dec := rfl
@[simp] theorem State.setLogical_halted : (s.setLogical b).halted = s.halted := rfl
@[simp] theorem State.setLogical_inq : (s.setLogical b).inq = s.inq := rfl
@[simp] theorem State.setLogical_inConnected : (s.setLogical b).inConnected = s.inConnected := rfl
@[simp] theorem State.setLogical_outq : (s.setLogical b).outq = s.outq := rfl
@[simp] theorem State.setLogical_outConnected : (s.setLogical b).outConnected = s.outConnected := rfl
@[simp] theorem State.setLogical_presented : (s.setLogical b).presented = s.presented := rfl
@[simp] theorem State.setLogical_diagLog : (s.setLogical b).diagLog = s.diagLog := rfl
@[simp] theorem State.setLogical_boot : (s.setLogical b).boot = s.boot := rfl
@[simp] theorem State.setLogical_env : (s.setLogical b).env = s.env := rfl
@[simp] theorem State.setLogical_clock : (s.setLogical b).clock = s.clock := rfl
@[simp] theorem State.setLogical_allocAnswers : (s.setLogical b).allocAnswers = s.allocAnswers := rfl
@[simp] theorem State.setLogical_draws : (s.setLogical b).draws = s.draws := rfl
@[simp] theorem State.setLogical_width : (s.setLogical b).width = s.width := rfl
@[simp] theorem State.setLogical_height : (s.setLogical b).height = s.height := rfl
@[simp] theorem State.setLogical_fbSize : (s.setLogical b).fbSize = s.fbSize := rfl
@[simp] theorem State.setLogical_refreshHz : (s.setLogical b).refreshHz = s.refreshHz := rfl
@[simp] theorem State.setLogical_cols : (s.setLogical b).cols = s.cols := rfl
@[simp] theorem State.setLogical_rows : (s.setLogical b).rows = s.rows := rfl

end setLogical

section setGlyphs

variable (s : State) (g : Vector Glyph 224)

@[simp] theorem State.setGlyphs_mode : (s.setGlyphs g).mode = s.mode := rfl
@[simp] theorem State.setGlyphs_fb : (s.setGlyphs g).fb = s.fb := rfl
@[simp] theorem State.setGlyphs_curX : (s.setGlyphs g).curX = s.curX := rfl
@[simp] theorem State.setGlyphs_curY : (s.setGlyphs g).curY = s.curY := rfl
@[simp] theorem State.setGlyphs_fg : (s.setGlyphs g).fg = s.fg := rfl
@[simp] theorem State.setGlyphs_bg : (s.setGlyphs g).bg = s.bg := rfl
@[simp] theorem State.setGlyphs_gcol : (s.setGlyphs g).gcol = s.gcol := rfl
@[simp] theorem State.setGlyphs_hist : (s.setGlyphs g).hist = s.hist := rfl
@[simp] theorem State.setGlyphs_origin : (s.setGlyphs g).origin = s.origin := rfl
@[simp] theorem State.setGlyphs_logical : (s.setGlyphs g).logical = s.logical := rfl
@[simp] theorem State.setGlyphs_glyphs : (s.setGlyphs g).glyphs = g := rfl
@[simp] theorem State.setGlyphs_lastPresentUs : (s.setGlyphs g).lastPresentUs = s.lastPresentUs := rfl
@[simp] theorem State.setGlyphs_lastBlinkUs : (s.setGlyphs g).lastBlinkUs = s.lastBlinkUs := rfl
@[simp] theorem State.setGlyphs_blinkOn : (s.setGlyphs g).blinkOn = s.blinkOn := rfl
@[simp] theorem State.setGlyphs_dec : (s.setGlyphs g).dec = s.dec := rfl
@[simp] theorem State.setGlyphs_halted : (s.setGlyphs g).halted = s.halted := rfl
@[simp] theorem State.setGlyphs_inq : (s.setGlyphs g).inq = s.inq := rfl
@[simp] theorem State.setGlyphs_inConnected : (s.setGlyphs g).inConnected = s.inConnected := rfl
@[simp] theorem State.setGlyphs_outq : (s.setGlyphs g).outq = s.outq := rfl
@[simp] theorem State.setGlyphs_outConnected : (s.setGlyphs g).outConnected = s.outConnected := rfl
@[simp] theorem State.setGlyphs_presented : (s.setGlyphs g).presented = s.presented := rfl
@[simp] theorem State.setGlyphs_diagLog : (s.setGlyphs g).diagLog = s.diagLog := rfl
@[simp] theorem State.setGlyphs_boot : (s.setGlyphs g).boot = s.boot := rfl
@[simp] theorem State.setGlyphs_env : (s.setGlyphs g).env = s.env := rfl
@[simp] theorem State.setGlyphs_clock : (s.setGlyphs g).clock = s.clock := rfl
@[simp] theorem State.setGlyphs_allocAnswers : (s.setGlyphs g).allocAnswers = s.allocAnswers := rfl
@[simp] theorem State.setGlyphs_draws : (s.setGlyphs g).draws = s.draws := rfl
@[simp] theorem State.setGlyphs_width : (s.setGlyphs g).width = s.width := rfl
@[simp] theorem State.setGlyphs_height : (s.setGlyphs g).height = s.height := rfl
@[simp] theorem State.setGlyphs_fbSize : (s.setGlyphs g).fbSize = s.fbSize := rfl
@[simp] theorem State.setGlyphs_refreshHz : (s.setGlyphs g).refreshHz = s.refreshHz := rfl
@[simp] theorem State.setGlyphs_cols : (s.setGlyphs g).cols = s.cols := rfl
@[simp] theorem State.setGlyphs_rows : (s.setGlyphs g).rows = s.rows := rfl

end setGlyphs

section setHalted

variable (s : State) (c : Option FatalCause)

@[simp] theorem State.setHalted_mode : (s.setHalted c).mode = s.mode := rfl
@[simp] theorem State.setHalted_fb : (s.setHalted c).fb = s.fb := rfl
@[simp] theorem State.setHalted_curX : (s.setHalted c).curX = s.curX := rfl
@[simp] theorem State.setHalted_curY : (s.setHalted c).curY = s.curY := rfl
@[simp] theorem State.setHalted_fg : (s.setHalted c).fg = s.fg := rfl
@[simp] theorem State.setHalted_bg : (s.setHalted c).bg = s.bg := rfl
@[simp] theorem State.setHalted_gcol : (s.setHalted c).gcol = s.gcol := rfl
@[simp] theorem State.setHalted_hist : (s.setHalted c).hist = s.hist := rfl
@[simp] theorem State.setHalted_origin : (s.setHalted c).origin = s.origin := rfl
@[simp] theorem State.setHalted_logical : (s.setHalted c).logical = s.logical := rfl
@[simp] theorem State.setHalted_glyphs : (s.setHalted c).glyphs = s.glyphs := rfl
@[simp] theorem State.setHalted_lastPresentUs : (s.setHalted c).lastPresentUs = s.lastPresentUs := rfl
@[simp] theorem State.setHalted_lastBlinkUs : (s.setHalted c).lastBlinkUs = s.lastBlinkUs := rfl
@[simp] theorem State.setHalted_blinkOn : (s.setHalted c).blinkOn = s.blinkOn := rfl
@[simp] theorem State.setHalted_dec : (s.setHalted c).dec = s.dec := rfl
@[simp] theorem State.setHalted_halted : (s.setHalted c).halted = c := rfl
@[simp] theorem State.setHalted_inq : (s.setHalted c).inq = s.inq := rfl
@[simp] theorem State.setHalted_inConnected : (s.setHalted c).inConnected = s.inConnected := rfl
@[simp] theorem State.setHalted_outq : (s.setHalted c).outq = s.outq := rfl
@[simp] theorem State.setHalted_outConnected : (s.setHalted c).outConnected = s.outConnected := rfl
@[simp] theorem State.setHalted_presented : (s.setHalted c).presented = s.presented := rfl
@[simp] theorem State.setHalted_diagLog : (s.setHalted c).diagLog = s.diagLog := rfl
@[simp] theorem State.setHalted_boot : (s.setHalted c).boot = s.boot := rfl
@[simp] theorem State.setHalted_env : (s.setHalted c).env = s.env := rfl
@[simp] theorem State.setHalted_clock : (s.setHalted c).clock = s.clock := rfl
@[simp] theorem State.setHalted_allocAnswers : (s.setHalted c).allocAnswers = s.allocAnswers := rfl
@[simp] theorem State.setHalted_draws : (s.setHalted c).draws = s.draws := rfl
@[simp] theorem State.setHalted_width : (s.setHalted c).width = s.width := rfl
@[simp] theorem State.setHalted_height : (s.setHalted c).height = s.height := rfl
@[simp] theorem State.setHalted_fbSize : (s.setHalted c).fbSize = s.fbSize := rfl
@[simp] theorem State.setHalted_refreshHz : (s.setHalted c).refreshHz = s.refreshHz := rfl
@[simp] theorem State.setHalted_cols : (s.setHalted c).cols = s.cols := rfl
@[simp] theorem State.setHalted_rows : (s.setHalted c).rows = s.rows := rfl

end setHalted

section setInq

variable (s : State) (bs : List Byte) (d : Phase)

@[simp] theorem State.setInq_mode : (s.setInq bs d).mode = s.mode := rfl
@[simp] theorem State.setInq_fb : (s.setInq bs d).fb = s.fb := rfl
@[simp] theorem State.setInq_curX : (s.setInq bs d).curX = s.curX := rfl
@[simp] theorem State.setInq_curY : (s.setInq bs d).curY = s.curY := rfl
@[simp] theorem State.setInq_fg : (s.setInq bs d).fg = s.fg := rfl
@[simp] theorem State.setInq_bg : (s.setInq bs d).bg = s.bg := rfl
@[simp] theorem State.setInq_gcol : (s.setInq bs d).gcol = s.gcol := rfl
@[simp] theorem State.setInq_hist : (s.setInq bs d).hist = s.hist := rfl
@[simp] theorem State.setInq_origin : (s.setInq bs d).origin = s.origin := rfl
@[simp] theorem State.setInq_logical : (s.setInq bs d).logical = s.logical := rfl
@[simp] theorem State.setInq_glyphs : (s.setInq bs d).glyphs = s.glyphs := rfl
@[simp] theorem State.setInq_lastPresentUs : (s.setInq bs d).lastPresentUs = s.lastPresentUs := rfl
@[simp] theorem State.setInq_lastBlinkUs : (s.setInq bs d).lastBlinkUs = s.lastBlinkUs := rfl
@[simp] theorem State.setInq_blinkOn : (s.setInq bs d).blinkOn = s.blinkOn := rfl
@[simp] theorem State.setInq_dec : (s.setInq bs d).dec = d := rfl
@[simp] theorem State.setInq_halted : (s.setInq bs d).halted = s.halted := rfl
@[simp] theorem State.setInq_inq : (s.setInq bs d).inq = bs := rfl
@[simp] theorem State.setInq_inConnected : (s.setInq bs d).inConnected = s.inConnected := rfl
@[simp] theorem State.setInq_outq : (s.setInq bs d).outq = s.outq := rfl
@[simp] theorem State.setInq_outConnected : (s.setInq bs d).outConnected = s.outConnected := rfl
@[simp] theorem State.setInq_presented : (s.setInq bs d).presented = s.presented := rfl
@[simp] theorem State.setInq_diagLog : (s.setInq bs d).diagLog = s.diagLog := rfl
@[simp] theorem State.setInq_boot : (s.setInq bs d).boot = s.boot := rfl
@[simp] theorem State.setInq_env : (s.setInq bs d).env = s.env := rfl
@[simp] theorem State.setInq_clock : (s.setInq bs d).clock = s.clock := rfl
@[simp] theorem State.setInq_allocAnswers : (s.setInq bs d).allocAnswers = s.allocAnswers := rfl
@[simp] theorem State.setInq_draws : (s.setInq bs d).draws = s.draws := rfl
@[simp] theorem State.setInq_width : (s.setInq bs d).width = s.width := rfl
@[simp] theorem State.setInq_height : (s.setInq bs d).height = s.height := rfl
@[simp] theorem State.setInq_fbSize : (s.setInq bs d).fbSize = s.fbSize := rfl
@[simp] theorem State.setInq_refreshHz : (s.setInq bs d).refreshHz = s.refreshHz := rfl
@[simp] theorem State.setInq_cols : (s.setInq bs d).cols = s.cols := rfl
@[simp] theorem State.setInq_rows : (s.setInq bs d).rows = s.rows := rfl

end setInq

section setOutq

variable (s : State) (bs : List Byte)

@[simp] theorem State.setOutq_mode : (s.setOutq bs).mode = s.mode := rfl
@[simp] theorem State.setOutq_fb : (s.setOutq bs).fb = s.fb := rfl
@[simp] theorem State.setOutq_curX : (s.setOutq bs).curX = s.curX := rfl
@[simp] theorem State.setOutq_curY : (s.setOutq bs).curY = s.curY := rfl
@[simp] theorem State.setOutq_fg : (s.setOutq bs).fg = s.fg := rfl
@[simp] theorem State.setOutq_bg : (s.setOutq bs).bg = s.bg := rfl
@[simp] theorem State.setOutq_gcol : (s.setOutq bs).gcol = s.gcol := rfl
@[simp] theorem State.setOutq_hist : (s.setOutq bs).hist = s.hist := rfl
@[simp] theorem State.setOutq_origin : (s.setOutq bs).origin = s.origin := rfl
@[simp] theorem State.setOutq_logical : (s.setOutq bs).logical = s.logical := rfl
@[simp] theorem State.setOutq_glyphs : (s.setOutq bs).glyphs = s.glyphs := rfl
@[simp] theorem State.setOutq_lastPresentUs : (s.setOutq bs).lastPresentUs = s.lastPresentUs := rfl
@[simp] theorem State.setOutq_lastBlinkUs : (s.setOutq bs).lastBlinkUs = s.lastBlinkUs := rfl
@[simp] theorem State.setOutq_blinkOn : (s.setOutq bs).blinkOn = s.blinkOn := rfl
@[simp] theorem State.setOutq_dec : (s.setOutq bs).dec = s.dec := rfl
@[simp] theorem State.setOutq_halted : (s.setOutq bs).halted = s.halted := rfl
@[simp] theorem State.setOutq_inq : (s.setOutq bs).inq = s.inq := rfl
@[simp] theorem State.setOutq_inConnected : (s.setOutq bs).inConnected = s.inConnected := rfl
@[simp] theorem State.setOutq_outq : (s.setOutq bs).outq = bs := rfl
@[simp] theorem State.setOutq_outConnected : (s.setOutq bs).outConnected = s.outConnected := rfl
@[simp] theorem State.setOutq_presented : (s.setOutq bs).presented = s.presented := rfl
@[simp] theorem State.setOutq_diagLog : (s.setOutq bs).diagLog = s.diagLog := rfl
@[simp] theorem State.setOutq_boot : (s.setOutq bs).boot = s.boot := rfl
@[simp] theorem State.setOutq_env : (s.setOutq bs).env = s.env := rfl
@[simp] theorem State.setOutq_clock : (s.setOutq bs).clock = s.clock := rfl
@[simp] theorem State.setOutq_allocAnswers : (s.setOutq bs).allocAnswers = s.allocAnswers := rfl
@[simp] theorem State.setOutq_draws : (s.setOutq bs).draws = s.draws := rfl
@[simp] theorem State.setOutq_width : (s.setOutq bs).width = s.width := rfl
@[simp] theorem State.setOutq_height : (s.setOutq bs).height = s.height := rfl
@[simp] theorem State.setOutq_fbSize : (s.setOutq bs).fbSize = s.fbSize := rfl
@[simp] theorem State.setOutq_refreshHz : (s.setOutq bs).refreshHz = s.refreshHz := rfl
@[simp] theorem State.setOutq_cols : (s.setOutq bs).cols = s.cols := rfl
@[simp] theorem State.setOutq_rows : (s.setOutq bs).rows = s.rows := rfl

end setOutq

section setDiagLog

variable (s : State) (es : List DiagEvent)

@[simp] theorem State.setDiagLog_mode : (s.setDiagLog es).mode = s.mode := rfl
@[simp] theorem State.setDiagLog_fb : (s.setDiagLog es).fb = s.fb := rfl
@[simp] theorem State.setDiagLog_curX : (s.setDiagLog es).curX = s.curX := rfl
@[simp] theorem State.setDiagLog_curY : (s.setDiagLog es).curY = s.curY := rfl
@[simp] theorem State.setDiagLog_fg : (s.setDiagLog es).fg = s.fg := rfl
@[simp] theorem State.setDiagLog_bg : (s.setDiagLog es).bg = s.bg := rfl
@[simp] theorem State.setDiagLog_gcol : (s.setDiagLog es).gcol = s.gcol := rfl
@[simp] theorem State.setDiagLog_hist : (s.setDiagLog es).hist = s.hist := rfl
@[simp] theorem State.setDiagLog_origin : (s.setDiagLog es).origin = s.origin := rfl
@[simp] theorem State.setDiagLog_logical : (s.setDiagLog es).logical = s.logical := rfl
@[simp] theorem State.setDiagLog_glyphs : (s.setDiagLog es).glyphs = s.glyphs := rfl
@[simp] theorem State.setDiagLog_lastPresentUs : (s.setDiagLog es).lastPresentUs = s.lastPresentUs := rfl
@[simp] theorem State.setDiagLog_lastBlinkUs : (s.setDiagLog es).lastBlinkUs = s.lastBlinkUs := rfl
@[simp] theorem State.setDiagLog_blinkOn : (s.setDiagLog es).blinkOn = s.blinkOn := rfl
@[simp] theorem State.setDiagLog_dec : (s.setDiagLog es).dec = s.dec := rfl
@[simp] theorem State.setDiagLog_halted : (s.setDiagLog es).halted = s.halted := rfl
@[simp] theorem State.setDiagLog_inq : (s.setDiagLog es).inq = s.inq := rfl
@[simp] theorem State.setDiagLog_inConnected : (s.setDiagLog es).inConnected = s.inConnected := rfl
@[simp] theorem State.setDiagLog_outq : (s.setDiagLog es).outq = s.outq := rfl
@[simp] theorem State.setDiagLog_outConnected : (s.setDiagLog es).outConnected = s.outConnected := rfl
@[simp] theorem State.setDiagLog_presented : (s.setDiagLog es).presented = s.presented := rfl
@[simp] theorem State.setDiagLog_diagLog : (s.setDiagLog es).diagLog = es := rfl
@[simp] theorem State.setDiagLog_boot : (s.setDiagLog es).boot = s.boot := rfl
@[simp] theorem State.setDiagLog_env : (s.setDiagLog es).env = s.env := rfl
@[simp] theorem State.setDiagLog_clock : (s.setDiagLog es).clock = s.clock := rfl
@[simp] theorem State.setDiagLog_allocAnswers : (s.setDiagLog es).allocAnswers = s.allocAnswers := rfl
@[simp] theorem State.setDiagLog_draws : (s.setDiagLog es).draws = s.draws := rfl
@[simp] theorem State.setDiagLog_width : (s.setDiagLog es).width = s.width := rfl
@[simp] theorem State.setDiagLog_height : (s.setDiagLog es).height = s.height := rfl
@[simp] theorem State.setDiagLog_fbSize : (s.setDiagLog es).fbSize = s.fbSize := rfl
@[simp] theorem State.setDiagLog_refreshHz : (s.setDiagLog es).refreshHz = s.refreshHz := rfl
@[simp] theorem State.setDiagLog_cols : (s.setDiagLog es).cols = s.cols := rfl
@[simp] theorem State.setDiagLog_rows : (s.setDiagLog es).rows = s.rows := rfl

end setDiagLog

section setPresented

variable (s : State) (fs : List Frame)

@[simp] theorem State.setPresented_mode : (s.setPresented fs).mode = s.mode := rfl
@[simp] theorem State.setPresented_fb : (s.setPresented fs).fb = s.fb := rfl
@[simp] theorem State.setPresented_curX : (s.setPresented fs).curX = s.curX := rfl
@[simp] theorem State.setPresented_curY : (s.setPresented fs).curY = s.curY := rfl
@[simp] theorem State.setPresented_fg : (s.setPresented fs).fg = s.fg := rfl
@[simp] theorem State.setPresented_bg : (s.setPresented fs).bg = s.bg := rfl
@[simp] theorem State.setPresented_gcol : (s.setPresented fs).gcol = s.gcol := rfl
@[simp] theorem State.setPresented_hist : (s.setPresented fs).hist = s.hist := rfl
@[simp] theorem State.setPresented_origin : (s.setPresented fs).origin = s.origin := rfl
@[simp] theorem State.setPresented_logical : (s.setPresented fs).logical = s.logical := rfl
@[simp] theorem State.setPresented_glyphs : (s.setPresented fs).glyphs = s.glyphs := rfl
@[simp] theorem State.setPresented_lastPresentUs : (s.setPresented fs).lastPresentUs = s.lastPresentUs := rfl
@[simp] theorem State.setPresented_lastBlinkUs : (s.setPresented fs).lastBlinkUs = s.lastBlinkUs := rfl
@[simp] theorem State.setPresented_blinkOn : (s.setPresented fs).blinkOn = s.blinkOn := rfl
@[simp] theorem State.setPresented_dec : (s.setPresented fs).dec = s.dec := rfl
@[simp] theorem State.setPresented_halted : (s.setPresented fs).halted = s.halted := rfl
@[simp] theorem State.setPresented_inq : (s.setPresented fs).inq = s.inq := rfl
@[simp] theorem State.setPresented_inConnected : (s.setPresented fs).inConnected = s.inConnected := rfl
@[simp] theorem State.setPresented_outq : (s.setPresented fs).outq = s.outq := rfl
@[simp] theorem State.setPresented_outConnected : (s.setPresented fs).outConnected = s.outConnected := rfl
@[simp] theorem State.setPresented_presented : (s.setPresented fs).presented = fs := rfl
@[simp] theorem State.setPresented_diagLog : (s.setPresented fs).diagLog = s.diagLog := rfl
@[simp] theorem State.setPresented_boot : (s.setPresented fs).boot = s.boot := rfl
@[simp] theorem State.setPresented_env : (s.setPresented fs).env = s.env := rfl
@[simp] theorem State.setPresented_clock : (s.setPresented fs).clock = s.clock := rfl
@[simp] theorem State.setPresented_allocAnswers : (s.setPresented fs).allocAnswers = s.allocAnswers := rfl
@[simp] theorem State.setPresented_draws : (s.setPresented fs).draws = s.draws := rfl
@[simp] theorem State.setPresented_width : (s.setPresented fs).width = s.width := rfl
@[simp] theorem State.setPresented_height : (s.setPresented fs).height = s.height := rfl
@[simp] theorem State.setPresented_fbSize : (s.setPresented fs).fbSize = s.fbSize := rfl
@[simp] theorem State.setPresented_refreshHz : (s.setPresented fs).refreshHz = s.refreshHz := rfl
@[simp] theorem State.setPresented_cols : (s.setPresented fs).cols = s.cols := rfl
@[simp] theorem State.setPresented_rows : (s.setPresented fs).rows = s.rows := rfl

end setPresented

section setLastPresent

variable (s : State) (t : Int)

@[simp] theorem State.setLastPresent_mode : (s.setLastPresent t).mode = s.mode := rfl
@[simp] theorem State.setLastPresent_fb : (s.setLastPresent t).fb = s.fb := rfl
@[simp] theorem State.setLastPresent_curX : (s.setLastPresent t).curX = s.curX := rfl
@[simp] theorem State.setLastPresent_curY : (s.setLastPresent t).curY = s.curY := rfl
@[simp] theorem State.setLastPresent_fg : (s.setLastPresent t).fg = s.fg := rfl
@[simp] theorem State.setLastPresent_bg : (s.setLastPresent t).bg = s.bg := rfl
@[simp] theorem State.setLastPresent_gcol : (s.setLastPresent t).gcol = s.gcol := rfl
@[simp] theorem State.setLastPresent_hist : (s.setLastPresent t).hist = s.hist := rfl
@[simp] theorem State.setLastPresent_origin : (s.setLastPresent t).origin = s.origin := rfl
@[simp] theorem State.setLastPresent_logical : (s.setLastPresent t).logical = s.logical := rfl
@[simp] theorem State.setLastPresent_glyphs : (s.setLastPresent t).glyphs = s.glyphs := rfl
@[simp] theorem State.setLastPresent_lastPresentUs : (s.setLastPresent t).lastPresentUs = t := rfl
@[simp] theorem State.setLastPresent_lastBlinkUs : (s.setLastPresent t).lastBlinkUs = s.lastBlinkUs := rfl
@[simp] theorem State.setLastPresent_blinkOn : (s.setLastPresent t).blinkOn = s.blinkOn := rfl
@[simp] theorem State.setLastPresent_dec : (s.setLastPresent t).dec = s.dec := rfl
@[simp] theorem State.setLastPresent_halted : (s.setLastPresent t).halted = s.halted := rfl
@[simp] theorem State.setLastPresent_inq : (s.setLastPresent t).inq = s.inq := rfl
@[simp] theorem State.setLastPresent_inConnected : (s.setLastPresent t).inConnected = s.inConnected := rfl
@[simp] theorem State.setLastPresent_outq : (s.setLastPresent t).outq = s.outq := rfl
@[simp] theorem State.setLastPresent_outConnected : (s.setLastPresent t).outConnected = s.outConnected := rfl
@[simp] theorem State.setLastPresent_presented : (s.setLastPresent t).presented = s.presented := rfl
@[simp] theorem State.setLastPresent_diagLog : (s.setLastPresent t).diagLog = s.diagLog := rfl
@[simp] theorem State.setLastPresent_boot : (s.setLastPresent t).boot = s.boot := rfl
@[simp] theorem State.setLastPresent_env : (s.setLastPresent t).env = s.env := rfl
@[simp] theorem State.setLastPresent_clock : (s.setLastPresent t).clock = s.clock := rfl
@[simp] theorem State.setLastPresent_allocAnswers : (s.setLastPresent t).allocAnswers = s.allocAnswers := rfl
@[simp] theorem State.setLastPresent_draws : (s.setLastPresent t).draws = s.draws := rfl
@[simp] theorem State.setLastPresent_width : (s.setLastPresent t).width = s.width := rfl
@[simp] theorem State.setLastPresent_height : (s.setLastPresent t).height = s.height := rfl
@[simp] theorem State.setLastPresent_fbSize : (s.setLastPresent t).fbSize = s.fbSize := rfl
@[simp] theorem State.setLastPresent_refreshHz : (s.setLastPresent t).refreshHz = s.refreshHz := rfl
@[simp] theorem State.setLastPresent_cols : (s.setLastPresent t).cols = s.cols := rfl
@[simp] theorem State.setLastPresent_rows : (s.setLastPresent t).rows = s.rows := rfl

end setLastPresent

section setBlink

variable (s : State) (on : Bool) (t : Int)

@[simp] theorem State.setBlink_mode : (s.setBlink on t).mode = s.mode := rfl
@[simp] theorem State.setBlink_fb : (s.setBlink on t).fb = s.fb := rfl
@[simp] theorem State.setBlink_curX : (s.setBlink on t).curX = s.curX := rfl
@[simp] theorem State.setBlink_curY : (s.setBlink on t).curY = s.curY := rfl
@[simp] theorem State.setBlink_fg : (s.setBlink on t).fg = s.fg := rfl
@[simp] theorem State.setBlink_bg : (s.setBlink on t).bg = s.bg := rfl
@[simp] theorem State.setBlink_gcol : (s.setBlink on t).gcol = s.gcol := rfl
@[simp] theorem State.setBlink_hist : (s.setBlink on t).hist = s.hist := rfl
@[simp] theorem State.setBlink_origin : (s.setBlink on t).origin = s.origin := rfl
@[simp] theorem State.setBlink_logical : (s.setBlink on t).logical = s.logical := rfl
@[simp] theorem State.setBlink_glyphs : (s.setBlink on t).glyphs = s.glyphs := rfl
@[simp] theorem State.setBlink_lastPresentUs : (s.setBlink on t).lastPresentUs = s.lastPresentUs := rfl
@[simp] theorem State.setBlink_lastBlinkUs : (s.setBlink on t).lastBlinkUs = t := rfl
@[simp] theorem State.setBlink_blinkOn : (s.setBlink on t).blinkOn = on := rfl
@[simp] theorem State.setBlink_dec : (s.setBlink on t).dec = s.dec := rfl
@[simp] theorem State.setBlink_halted : (s.setBlink on t).halted = s.halted := rfl
@[simp] theorem State.setBlink_inq : (s.setBlink on t).inq = s.inq := rfl
@[simp] theorem State.setBlink_inConnected : (s.setBlink on t).inConnected = s.inConnected := rfl
@[simp] theorem State.setBlink_outq : (s.setBlink on t).outq = s.outq := rfl
@[simp] theorem State.setBlink_outConnected : (s.setBlink on t).outConnected = s.outConnected := rfl
@[simp] theorem State.setBlink_presented : (s.setBlink on t).presented = s.presented := rfl
@[simp] theorem State.setBlink_diagLog : (s.setBlink on t).diagLog = s.diagLog := rfl
@[simp] theorem State.setBlink_boot : (s.setBlink on t).boot = s.boot := rfl
@[simp] theorem State.setBlink_env : (s.setBlink on t).env = s.env := rfl
@[simp] theorem State.setBlink_clock : (s.setBlink on t).clock = s.clock := rfl
@[simp] theorem State.setBlink_allocAnswers : (s.setBlink on t).allocAnswers = s.allocAnswers := rfl
@[simp] theorem State.setBlink_draws : (s.setBlink on t).draws = s.draws := rfl
@[simp] theorem State.setBlink_width : (s.setBlink on t).width = s.width := rfl
@[simp] theorem State.setBlink_height : (s.setBlink on t).height = s.height := rfl
@[simp] theorem State.setBlink_fbSize : (s.setBlink on t).fbSize = s.fbSize := rfl
@[simp] theorem State.setBlink_refreshHz : (s.setBlink on t).refreshHz = s.refreshHz := rfl
@[simp] theorem State.setBlink_cols : (s.setBlink on t).cols = s.cols := rfl
@[simp] theorem State.setBlink_rows : (s.setBlink on t).rows = s.rows := rfl

end setBlink

section setChannels

variable (s : State) (i o : Bool)

@[simp] theorem State.setChannels_mode : (s.setChannels i o).mode = s.mode := rfl
@[simp] theorem State.setChannels_fb : (s.setChannels i o).fb = s.fb := rfl
@[simp] theorem State.setChannels_curX : (s.setChannels i o).curX = s.curX := rfl
@[simp] theorem State.setChannels_curY : (s.setChannels i o).curY = s.curY := rfl
@[simp] theorem State.setChannels_fg : (s.setChannels i o).fg = s.fg := rfl
@[simp] theorem State.setChannels_bg : (s.setChannels i o).bg = s.bg := rfl
@[simp] theorem State.setChannels_gcol : (s.setChannels i o).gcol = s.gcol := rfl
@[simp] theorem State.setChannels_hist : (s.setChannels i o).hist = s.hist := rfl
@[simp] theorem State.setChannels_origin : (s.setChannels i o).origin = s.origin := rfl
@[simp] theorem State.setChannels_logical : (s.setChannels i o).logical = s.logical := rfl
@[simp] theorem State.setChannels_glyphs : (s.setChannels i o).glyphs = s.glyphs := rfl
@[simp] theorem State.setChannels_lastPresentUs : (s.setChannels i o).lastPresentUs = s.lastPresentUs := rfl
@[simp] theorem State.setChannels_lastBlinkUs : (s.setChannels i o).lastBlinkUs = s.lastBlinkUs := rfl
@[simp] theorem State.setChannels_blinkOn : (s.setChannels i o).blinkOn = s.blinkOn := rfl
@[simp] theorem State.setChannels_dec : (s.setChannels i o).dec = s.dec := rfl
@[simp] theorem State.setChannels_halted : (s.setChannels i o).halted = s.halted := rfl
@[simp] theorem State.setChannels_inq : (s.setChannels i o).inq = s.inq := rfl
@[simp] theorem State.setChannels_inConnected : (s.setChannels i o).inConnected = i := rfl
@[simp] theorem State.setChannels_outq : (s.setChannels i o).outq = s.outq := rfl
@[simp] theorem State.setChannels_outConnected : (s.setChannels i o).outConnected = o := rfl
@[simp] theorem State.setChannels_presented : (s.setChannels i o).presented = s.presented := rfl
@[simp] theorem State.setChannels_diagLog : (s.setChannels i o).diagLog = s.diagLog := rfl
@[simp] theorem State.setChannels_boot : (s.setChannels i o).boot = s.boot := rfl
@[simp] theorem State.setChannels_env : (s.setChannels i o).env = s.env := rfl
@[simp] theorem State.setChannels_clock : (s.setChannels i o).clock = s.clock := rfl
@[simp] theorem State.setChannels_allocAnswers : (s.setChannels i o).allocAnswers = s.allocAnswers := rfl
@[simp] theorem State.setChannels_draws : (s.setChannels i o).draws = s.draws := rfl
@[simp] theorem State.setChannels_width : (s.setChannels i o).width = s.width := rfl
@[simp] theorem State.setChannels_height : (s.setChannels i o).height = s.height := rfl
@[simp] theorem State.setChannels_fbSize : (s.setChannels i o).fbSize = s.fbSize := rfl
@[simp] theorem State.setChannels_refreshHz : (s.setChannels i o).refreshHz = s.refreshHz := rfl
@[simp] theorem State.setChannels_cols : (s.setChannels i o).cols = s.cols := rfl
@[simp] theorem State.setChannels_rows : (s.setChannels i o).rows = s.rows := rfl

end setChannels

section setBoot

variable (s : State) (bs : List Byte)

@[simp] theorem State.setBoot_mode : (s.setBoot bs).mode = s.mode := rfl
@[simp] theorem State.setBoot_fb : (s.setBoot bs).fb = s.fb := rfl
@[simp] theorem State.setBoot_curX : (s.setBoot bs).curX = s.curX := rfl
@[simp] theorem State.setBoot_curY : (s.setBoot bs).curY = s.curY := rfl
@[simp] theorem State.setBoot_fg : (s.setBoot bs).fg = s.fg := rfl
@[simp] theorem State.setBoot_bg : (s.setBoot bs).bg = s.bg := rfl
@[simp] theorem State.setBoot_gcol : (s.setBoot bs).gcol = s.gcol := rfl
@[simp] theorem State.setBoot_hist : (s.setBoot bs).hist = s.hist := rfl
@[simp] theorem State.setBoot_origin : (s.setBoot bs).origin = s.origin := rfl
@[simp] theorem State.setBoot_logical : (s.setBoot bs).logical = s.logical := rfl
@[simp] theorem State.setBoot_glyphs : (s.setBoot bs).glyphs = s.glyphs := rfl
@[simp] theorem State.setBoot_lastPresentUs : (s.setBoot bs).lastPresentUs = s.lastPresentUs := rfl
@[simp] theorem State.setBoot_lastBlinkUs : (s.setBoot bs).lastBlinkUs = s.lastBlinkUs := rfl
@[simp] theorem State.setBoot_blinkOn : (s.setBoot bs).blinkOn = s.blinkOn := rfl
@[simp] theorem State.setBoot_dec : (s.setBoot bs).dec = s.dec := rfl
@[simp] theorem State.setBoot_halted : (s.setBoot bs).halted = s.halted := rfl
@[simp] theorem State.setBoot_inq : (s.setBoot bs).inq = s.inq := rfl
@[simp] theorem State.setBoot_inConnected : (s.setBoot bs).inConnected = s.inConnected := rfl
@[simp] theorem State.setBoot_outq : (s.setBoot bs).outq = s.outq := rfl
@[simp] theorem State.setBoot_outConnected : (s.setBoot bs).outConnected = s.outConnected := rfl
@[simp] theorem State.setBoot_presented : (s.setBoot bs).presented = s.presented := rfl
@[simp] theorem State.setBoot_diagLog : (s.setBoot bs).diagLog = s.diagLog := rfl
@[simp] theorem State.setBoot_boot : (s.setBoot bs).boot = bs := rfl
@[simp] theorem State.setBoot_env : (s.setBoot bs).env = s.env := rfl
@[simp] theorem State.setBoot_clock : (s.setBoot bs).clock = s.clock := rfl
@[simp] theorem State.setBoot_allocAnswers : (s.setBoot bs).allocAnswers = s.allocAnswers := rfl
@[simp] theorem State.setBoot_draws : (s.setBoot bs).draws = s.draws := rfl
@[simp] theorem State.setBoot_width : (s.setBoot bs).width = s.width := rfl
@[simp] theorem State.setBoot_height : (s.setBoot bs).height = s.height := rfl
@[simp] theorem State.setBoot_fbSize : (s.setBoot bs).fbSize = s.fbSize := rfl
@[simp] theorem State.setBoot_refreshHz : (s.setBoot bs).refreshHz = s.refreshHz := rfl
@[simp] theorem State.setBoot_cols : (s.setBoot bs).cols = s.cols := rfl
@[simp] theorem State.setBoot_rows : (s.setBoot bs).rows = s.rows := rfl

end setBoot

section setEnv

variable (s : State) (es : List EnvMove)

@[simp] theorem State.setEnv_mode : (s.setEnv es).mode = s.mode := rfl
@[simp] theorem State.setEnv_fb : (s.setEnv es).fb = s.fb := rfl
@[simp] theorem State.setEnv_curX : (s.setEnv es).curX = s.curX := rfl
@[simp] theorem State.setEnv_curY : (s.setEnv es).curY = s.curY := rfl
@[simp] theorem State.setEnv_fg : (s.setEnv es).fg = s.fg := rfl
@[simp] theorem State.setEnv_bg : (s.setEnv es).bg = s.bg := rfl
@[simp] theorem State.setEnv_gcol : (s.setEnv es).gcol = s.gcol := rfl
@[simp] theorem State.setEnv_hist : (s.setEnv es).hist = s.hist := rfl
@[simp] theorem State.setEnv_origin : (s.setEnv es).origin = s.origin := rfl
@[simp] theorem State.setEnv_logical : (s.setEnv es).logical = s.logical := rfl
@[simp] theorem State.setEnv_glyphs : (s.setEnv es).glyphs = s.glyphs := rfl
@[simp] theorem State.setEnv_lastPresentUs : (s.setEnv es).lastPresentUs = s.lastPresentUs := rfl
@[simp] theorem State.setEnv_lastBlinkUs : (s.setEnv es).lastBlinkUs = s.lastBlinkUs := rfl
@[simp] theorem State.setEnv_blinkOn : (s.setEnv es).blinkOn = s.blinkOn := rfl
@[simp] theorem State.setEnv_dec : (s.setEnv es).dec = s.dec := rfl
@[simp] theorem State.setEnv_halted : (s.setEnv es).halted = s.halted := rfl
@[simp] theorem State.setEnv_inq : (s.setEnv es).inq = s.inq := rfl
@[simp] theorem State.setEnv_inConnected : (s.setEnv es).inConnected = s.inConnected := rfl
@[simp] theorem State.setEnv_outq : (s.setEnv es).outq = s.outq := rfl
@[simp] theorem State.setEnv_outConnected : (s.setEnv es).outConnected = s.outConnected := rfl
@[simp] theorem State.setEnv_presented : (s.setEnv es).presented = s.presented := rfl
@[simp] theorem State.setEnv_diagLog : (s.setEnv es).diagLog = s.diagLog := rfl
@[simp] theorem State.setEnv_boot : (s.setEnv es).boot = s.boot := rfl
@[simp] theorem State.setEnv_env : (s.setEnv es).env = es := rfl
@[simp] theorem State.setEnv_clock : (s.setEnv es).clock = s.clock := rfl
@[simp] theorem State.setEnv_allocAnswers : (s.setEnv es).allocAnswers = s.allocAnswers := rfl
@[simp] theorem State.setEnv_draws : (s.setEnv es).draws = s.draws := rfl
@[simp] theorem State.setEnv_width : (s.setEnv es).width = s.width := rfl
@[simp] theorem State.setEnv_height : (s.setEnv es).height = s.height := rfl
@[simp] theorem State.setEnv_fbSize : (s.setEnv es).fbSize = s.fbSize := rfl
@[simp] theorem State.setEnv_refreshHz : (s.setEnv es).refreshHz = s.refreshHz := rfl
@[simp] theorem State.setEnv_cols : (s.setEnv es).cols = s.cols := rfl
@[simp] theorem State.setEnv_rows : (s.setEnv es).rows = s.rows := rfl

end setEnv

section setClock

variable (s : State) (t : Int)

@[simp] theorem State.setClock_mode : (s.setClock t).mode = s.mode := rfl
@[simp] theorem State.setClock_fb : (s.setClock t).fb = s.fb := rfl
@[simp] theorem State.setClock_curX : (s.setClock t).curX = s.curX := rfl
@[simp] theorem State.setClock_curY : (s.setClock t).curY = s.curY := rfl
@[simp] theorem State.setClock_fg : (s.setClock t).fg = s.fg := rfl
@[simp] theorem State.setClock_bg : (s.setClock t).bg = s.bg := rfl
@[simp] theorem State.setClock_gcol : (s.setClock t).gcol = s.gcol := rfl
@[simp] theorem State.setClock_hist : (s.setClock t).hist = s.hist := rfl
@[simp] theorem State.setClock_origin : (s.setClock t).origin = s.origin := rfl
@[simp] theorem State.setClock_logical : (s.setClock t).logical = s.logical := rfl
@[simp] theorem State.setClock_glyphs : (s.setClock t).glyphs = s.glyphs := rfl
@[simp] theorem State.setClock_lastPresentUs : (s.setClock t).lastPresentUs = s.lastPresentUs := rfl
@[simp] theorem State.setClock_lastBlinkUs : (s.setClock t).lastBlinkUs = s.lastBlinkUs := rfl
@[simp] theorem State.setClock_blinkOn : (s.setClock t).blinkOn = s.blinkOn := rfl
@[simp] theorem State.setClock_dec : (s.setClock t).dec = s.dec := rfl
@[simp] theorem State.setClock_halted : (s.setClock t).halted = s.halted := rfl
@[simp] theorem State.setClock_inq : (s.setClock t).inq = s.inq := rfl
@[simp] theorem State.setClock_inConnected : (s.setClock t).inConnected = s.inConnected := rfl
@[simp] theorem State.setClock_outq : (s.setClock t).outq = s.outq := rfl
@[simp] theorem State.setClock_outConnected : (s.setClock t).outConnected = s.outConnected := rfl
@[simp] theorem State.setClock_presented : (s.setClock t).presented = s.presented := rfl
@[simp] theorem State.setClock_diagLog : (s.setClock t).diagLog = s.diagLog := rfl
@[simp] theorem State.setClock_boot : (s.setClock t).boot = s.boot := rfl
@[simp] theorem State.setClock_env : (s.setClock t).env = s.env := rfl
@[simp] theorem State.setClock_clock : (s.setClock t).clock = t := rfl
@[simp] theorem State.setClock_allocAnswers : (s.setClock t).allocAnswers = s.allocAnswers := rfl
@[simp] theorem State.setClock_draws : (s.setClock t).draws = s.draws := rfl
@[simp] theorem State.setClock_width : (s.setClock t).width = s.width := rfl
@[simp] theorem State.setClock_height : (s.setClock t).height = s.height := rfl
@[simp] theorem State.setClock_fbSize : (s.setClock t).fbSize = s.fbSize := rfl
@[simp] theorem State.setClock_refreshHz : (s.setClock t).refreshHz = s.refreshHz := rfl
@[simp] theorem State.setClock_cols : (s.setClock t).cols = s.cols := rfl
@[simp] theorem State.setClock_rows : (s.setClock t).rows = s.rows := rfl

end setClock

section setDraws

variable (s : State) (as : List Bool) (n : Nat)

@[simp] theorem State.setDraws_mode : (s.setDraws as n).mode = s.mode := rfl
@[simp] theorem State.setDraws_fb : (s.setDraws as n).fb = s.fb := rfl
@[simp] theorem State.setDraws_curX : (s.setDraws as n).curX = s.curX := rfl
@[simp] theorem State.setDraws_curY : (s.setDraws as n).curY = s.curY := rfl
@[simp] theorem State.setDraws_fg : (s.setDraws as n).fg = s.fg := rfl
@[simp] theorem State.setDraws_bg : (s.setDraws as n).bg = s.bg := rfl
@[simp] theorem State.setDraws_gcol : (s.setDraws as n).gcol = s.gcol := rfl
@[simp] theorem State.setDraws_hist : (s.setDraws as n).hist = s.hist := rfl
@[simp] theorem State.setDraws_origin : (s.setDraws as n).origin = s.origin := rfl
@[simp] theorem State.setDraws_logical : (s.setDraws as n).logical = s.logical := rfl
@[simp] theorem State.setDraws_glyphs : (s.setDraws as n).glyphs = s.glyphs := rfl
@[simp] theorem State.setDraws_lastPresentUs : (s.setDraws as n).lastPresentUs = s.lastPresentUs := rfl
@[simp] theorem State.setDraws_lastBlinkUs : (s.setDraws as n).lastBlinkUs = s.lastBlinkUs := rfl
@[simp] theorem State.setDraws_blinkOn : (s.setDraws as n).blinkOn = s.blinkOn := rfl
@[simp] theorem State.setDraws_dec : (s.setDraws as n).dec = s.dec := rfl
@[simp] theorem State.setDraws_halted : (s.setDraws as n).halted = s.halted := rfl
@[simp] theorem State.setDraws_inq : (s.setDraws as n).inq = s.inq := rfl
@[simp] theorem State.setDraws_inConnected : (s.setDraws as n).inConnected = s.inConnected := rfl
@[simp] theorem State.setDraws_outq : (s.setDraws as n).outq = s.outq := rfl
@[simp] theorem State.setDraws_outConnected : (s.setDraws as n).outConnected = s.outConnected := rfl
@[simp] theorem State.setDraws_presented : (s.setDraws as n).presented = s.presented := rfl
@[simp] theorem State.setDraws_diagLog : (s.setDraws as n).diagLog = s.diagLog := rfl
@[simp] theorem State.setDraws_boot : (s.setDraws as n).boot = s.boot := rfl
@[simp] theorem State.setDraws_env : (s.setDraws as n).env = s.env := rfl
@[simp] theorem State.setDraws_clock : (s.setDraws as n).clock = s.clock := rfl
@[simp] theorem State.setDraws_allocAnswers : (s.setDraws as n).allocAnswers = as := rfl
@[simp] theorem State.setDraws_draws : (s.setDraws as n).draws = n := rfl
@[simp] theorem State.setDraws_width : (s.setDraws as n).width = s.width := rfl
@[simp] theorem State.setDraws_height : (s.setDraws as n).height = s.height := rfl
@[simp] theorem State.setDraws_fbSize : (s.setDraws as n).fbSize = s.fbSize := rfl
@[simp] theorem State.setDraws_refreshHz : (s.setDraws as n).refreshHz = s.refreshHz := rfl
@[simp] theorem State.setDraws_cols : (s.setDraws as n).cols = s.cols := rfl
@[simp] theorem State.setDraws_rows : (s.setDraws as n).rows = s.rows := rfl

end setDraws

section modeReset

variable (s : State) (m : Byte)

@[simp] theorem State.modeReset_mode : (s.modeReset m).mode = m := rfl
@[simp] theorem State.modeReset_fb : (s.modeReset m).fb = Memory.fill ((modeEntry m).width * (modeEntry m).height) (resolve m defaultBgIndex) := rfl
@[simp] theorem State.modeReset_curX : (s.modeReset m).curX = 0 := rfl
@[simp] theorem State.modeReset_curY : (s.modeReset m).curY = 0 := rfl
@[simp] theorem State.modeReset_fg : (s.modeReset m).fg = resolve m defaultFgIndex := rfl
@[simp] theorem State.modeReset_bg : (s.modeReset m).bg = resolve m defaultBgIndex := rfl
@[simp] theorem State.modeReset_gcol : (s.modeReset m).gcol = resolve m defaultGcolIndex := rfl
@[simp] theorem State.modeReset_hist : (s.modeReset m).hist = ⟨⟨0, 0⟩, ⟨0, 0⟩, ⟨0, 0⟩⟩ := rfl
@[simp] theorem State.modeReset_origin : (s.modeReset m).origin = ⟨0, 0⟩ := rfl
@[simp] theorem State.modeReset_logical : (s.modeReset m).logical = defaultLogical := rfl
@[simp] theorem State.modeReset_glyphs : (s.modeReset m).glyphs = s.glyphs := rfl
@[simp] theorem State.modeReset_lastPresentUs : (s.modeReset m).lastPresentUs = s.lastPresentUs := rfl
@[simp] theorem State.modeReset_lastBlinkUs : (s.modeReset m).lastBlinkUs = s.lastBlinkUs := rfl
@[simp] theorem State.modeReset_blinkOn : (s.modeReset m).blinkOn = s.blinkOn := rfl
@[simp] theorem State.modeReset_dec : (s.modeReset m).dec = s.dec := rfl
@[simp] theorem State.modeReset_halted : (s.modeReset m).halted = s.halted := rfl
@[simp] theorem State.modeReset_inq : (s.modeReset m).inq = s.inq := rfl
@[simp] theorem State.modeReset_inConnected : (s.modeReset m).inConnected = s.inConnected := rfl
@[simp] theorem State.modeReset_outq : (s.modeReset m).outq = s.outq := rfl
@[simp] theorem State.modeReset_outConnected : (s.modeReset m).outConnected = s.outConnected := rfl
@[simp] theorem State.modeReset_presented : (s.modeReset m).presented = s.presented := rfl
@[simp] theorem State.modeReset_diagLog : (s.modeReset m).diagLog = s.diagLog := rfl
@[simp] theorem State.modeReset_boot : (s.modeReset m).boot = s.boot := rfl
@[simp] theorem State.modeReset_env : (s.modeReset m).env = s.env := rfl
@[simp] theorem State.modeReset_clock : (s.modeReset m).clock = s.clock := rfl
@[simp] theorem State.modeReset_allocAnswers : (s.modeReset m).allocAnswers = s.allocAnswers := rfl
@[simp] theorem State.modeReset_draws : (s.modeReset m).draws = s.draws := rfl
@[simp] theorem State.modeReset_width : (s.modeReset m).width = (modeEntry m).width := rfl
@[simp] theorem State.modeReset_height : (s.modeReset m).height = (modeEntry m).height := rfl
@[simp] theorem State.modeReset_fbSize : (s.modeReset m).fbSize = (modeEntry m).width * (modeEntry m).height := rfl

end modeReset

end Sys2Proof.Machine
end

