-- ==== Sys2Proof/Laws/Ops.lean ====
section
/-! SUPPORT. What each shared operation does, said once: pixels, scroll, replies, errors, allocation. -/

namespace Sys2Proof.Machine

/-! Modes. -/

theorem legalEntry_width_pos (e : ModeInfo) : 1 ≤ (legalEntry e).width := le_max_left _ _

theorem modeEntry_width_pos (m : Byte) : 1 ≤ (modeEntry m).width := by
  unfold modeEntry modeTable
  split
  · decide
  · cases Config.modeRow m with
    | none => decide
    | some e => exact legalEntry_width_pos e

/-- A framebuffer is at least one pixel wide. -/
theorem State.width_pos (s : State) : 1 ≤ s.width := modeEntry_width_pos s.mode

theorem modeEntry_height_ge (m : Byte) : 8 ≤ (modeEntry m).height := by
  unfold modeEntry modeTable
  split
  · decide
  · cases Config.modeRow m with
    | none => decide
    | some e => exact le_max_left 8 e.height

/-- A framebuffer is at least one text row high (R41). -/
theorem State.height_ge (s : State) : 8 ≤ s.height := modeEntry_height_ge s.mode

theorem modeEntry_refresh_pos (m : Byte) : 1 ≤ (modeEntry m).refreshHz := by
  unfold modeEntry modeTable
  split
  · exact le_max_left _ _
  · cases Config.modeRow m with
    | none => exact le_max_left _ _
    | some e => exact le_max_left _ _

@[simp] theorem modeTable_one : modeTable 1#8 = some modeOne := rfl

theorem defaultMode_known : (modeTable defaultMode).isSome := by
  unfold defaultMode
  split
  · assumption
  · rfl

/-! Pixels. -/

theorem inFrame_iff (w h : Nat) (p : Point) :
    inFrame w h p = true ↔ 0 ≤ p.x ∧ p.x < w ∧ 0 ≤ p.y ∧ p.y < h := by
  simp [inFrame, and_assoc]

/-- The address of a point inside the framebuffer is inside the space. -/
theorem pixelAddr_lt (w h : Nat) (p : Point) (hp : inFrame w h p = true) : pixelAddr w p < w * h := by
  rw [inFrame_iff] at hp
  obtain ⟨hx, hxw, hy, hyh⟩ := hp
  have h1 : p.x.toNat < w := by omega
  have h2 : p.y.toNat + 1 ≤ h := by omega
  calc pixelAddr w p = p.y.toNat * w + p.x.toNat := rfl
    _ < p.y.toNat * w + w := by omega
    _ = (p.y.toNat + 1) * w := by rw [Nat.add_mul, Nat.one_mul]
    _ ≤ h * w := Nat.mul_le_mul_right w h2
    _ = w * h := Nat.mul_comm h w

/-- Two points inside the framebuffer with the same address are the same point. -/
theorem pixelAddr_inj (w h : Nat) (p q : Point) (hp : inFrame w h p = true) (hq : inFrame w h q = true)
    (he : pixelAddr w p = pixelAddr w q) : p = q := by
  rw [inFrame_iff] at hp hq
  have h1 : p.x.toNat < w := by omega
  have h2 : q.x.toNat < w := by omega
  have hw : 0 < w := by omega
  unfold pixelAddr at he
  have hmod := congrArg (· % w) he
  have hdiv := congrArg (· / w) he
  simp only [Nat.mul_add_mod_of_lt h1, Nat.mul_add_mod_of_lt h2] at hmod
  rw [Nat.add_comm, Nat.add_mul_div_right _ _ hw, Nat.add_comm, Nat.add_comm (q.y.toNat * w),
    Nat.add_mul_div_right _ _ hw] at hdiv
  rw [Nat.div_eq_of_lt h1, Nat.div_eq_of_lt h2] at hdiv
  cases p; cases q
  simp only [Point.mk.injEq] at *
  constructor <;> omega

theorem read_setPixel (w h : Nat) (m : Memory) (p : Point) (c : Pixel) (a : Nat) :
    (setPixel w h m p c).read a
      = if inFrame w h p = true ∧ pixelAddr w p = a then c else m.read a := by
  unfold setPixel
  by_cases hp : inFrame w h p = true
  · simp [hp, Memory.read_write, eq_comm]
  · simp [hp]

theorem wf_setPixel (w h : Nat) (m : Memory) (p : Point) (c : Pixel) (hm : Memory.wf (w * h) m) :
    Memory.wf (w * h) (setPixel w h m p c) := by
  unfold setPixel
  by_cases hp : inFrame w h p = true
  · rw [if_pos hp]; exact Memory.wf_write _ _ _ _ hm (pixelAddr_lt w h p hp)
  · rwa [if_neg hp]

/-- `paint` writes the framebuffer and nothing else. -/
theorem State.paint_eq (s : State) (ps : List (Point × Pixel)) :
    s.paint ps = s.setFb (ps.foldl (fun m q => setPixel s.width s.height m q.1 q.2) s.fb) := rfl

theorem wf_foldl_setPixel (w h : Nat) (ps : List (Point × Pixel)) (m : Memory)
    (hm : Memory.wf (w * h) m) :
    Memory.wf (w * h) (ps.foldl (fun m q => setPixel w h m q.1 q.2) m) := by
  induction ps generalizing m with
  | nil => exact hm
  | cons q t ih => exact ih _ (wf_setPixel w h m q.1 q.2 hm)

/-- `paint` keeps the canonical form. -/
theorem State.paint_wf (s : State) (ps : List (Point × Pixel)) (hm : Memory.wf s.fbSize s.fb) :
    Memory.wf s.fbSize (s.paint ps).fb := wf_foldl_setPixel _ _ ps _ hm

/-- A pixel that no painted point hits keeps its value. -/
theorem State.paint_read_of_not_mem (s : State) (ps : List (Point × Pixel)) (a : Nat)
    (h : ∀ q ∈ ps, ¬(inFrame s.width s.height q.1 = true ∧ pixelAddr s.width q.1 = a)) :
    (s.paint ps).fb.read a = s.fb.read a := by
  unfold State.paint
  simp only [State.setFb_fb]
  generalize s.fb = m
  induction ps generalizing m with
  | nil => rfl
  | cons q t ih =>
    rw [List.foldl_cons, ih (fun r hr => h r (List.mem_cons_of_mem _ hr)), read_setPixel,
      if_neg (h q (List.mem_cons_self ..))]

/-- A pixel that exactly one colour is painted at takes that colour. -/
theorem State.paint_read_of_mem (s : State) (ps : List (Point × Pixel)) (a : Nat) (c : Pixel)
    (hc : ∀ q ∈ ps, inFrame s.width s.height q.1 = true → pixelAddr s.width q.1 = a → q.2 = c)
    (h : ∃ q ∈ ps, inFrame s.width s.height q.1 = true ∧ pixelAddr s.width q.1 = a) :
    (s.paint ps).fb.read a = c := by
  have key : ∀ (ps : List (Point × Pixel)) (m : Memory),
      (∀ q ∈ ps, inFrame s.width s.height q.1 = true → pixelAddr s.width q.1 = a → q.2 = c) →
      (m.read a = c ∨ ∃ q ∈ ps, inFrame s.width s.height q.1 = true ∧ pixelAddr s.width q.1 = a) →
      (ps.foldl (fun m q => setPixel s.width s.height m q.1 q.2) m).read a = c := by
    intro ps
    induction ps with
    | nil => rintro m - (h | ⟨q, hq, -⟩); exacts [h, absurd hq (List.not_mem_nil)]
    | cons q t ih =>
      intro m hc h
      rw [List.foldl_cons]
      refine ih _ (fun r hr => hc r (List.mem_cons_of_mem _ hr)) ?_
      rw [read_setPixel]
      by_cases hq : inFrame s.width s.height q.1 = true ∧ pixelAddr s.width q.1 = a
      · left; rw [if_pos hq]; exact hc q (List.mem_cons_self ..) hq.1 hq.2
      · rcases h with h | ⟨r, hr, hr'⟩
        · left; rwa [if_neg hq]
        · rcases List.mem_cons.1 hr with rfl | hr
          · exact absurd hr' hq
          · exact .inr ⟨r, hr, hr'⟩
  exact key ps s.fb hc (.inr h)

/-- Whether a list of points hits a linear address of the framebuffer. -/
theorem State.draw_read (s : State) (ps : List Point) (c : Pixel) (a : Nat) :
    (s.draw ps c).fb.read a
      = if ∃ p ∈ ps, inFrame s.width s.height p = true ∧ pixelAddr s.width p = a then c
        else s.fb.read a := by
  unfold State.draw
  split
  · next h =>
    obtain ⟨p, hp, h⟩ := h
    refine s.paint_read_of_mem _ a c ?_ ⟨(p, c), List.mem_map.2 ⟨p, hp, rfl⟩, h⟩
    intro q hq _ _
    obtain ⟨r, -, rfl⟩ := List.mem_map.1 hq
    rfl
  · next h =>
    refine s.paint_read_of_not_mem _ a ?_
    intro q hq hh
    obtain ⟨r, hr, rfl⟩ := List.mem_map.1 hq
    exact h ⟨r, hr, hh⟩

/-- `draw` writes the framebuffer and nothing else. -/
theorem State.draw_eq (s : State) (ps : List Point) (c : Pixel) :
    ∃ m, s.draw ps c = s.setFb m := ⟨_, rfl⟩

/-- `draw` keeps the canonical form. -/
theorem State.draw_wf (s : State) (ps : List Point) (c : Pixel) (hm : Memory.wf s.fbSize s.fb) :
    Memory.wf s.fbSize (s.draw ps c).fb := s.paint_wf _ hm

/-- `clearFb` writes the framebuffer and nothing else. -/
theorem State.clearFb_eq (s : State) : s.clearFb = s.setFb (Memory.fill s.fbSize s.bg) := rfl

/-! Scroll. -/

/-- Everything `scrollCheck` can do: nothing, or a new framebuffer and the cursor at H − 8. -/
theorem State.scrollCheck_cases (s : State) :
    (s.curY + 8 - s.height ≤ 0 ∧ s.scrollCheck = s) ∨
    (0 < s.curY + 8 - s.height ∧ s.curY + 8 - s.height < s.height ∧
      s.scrollCheck = (s.setFb (s.fb.scroll s.width s.height (s.curY + 8 - s.height).toNat s.bg)).setCursor
        s.curX (s.height - 8)) ∨
    (0 < s.curY + 8 - s.height ∧ s.height ≤ s.curY + 8 - s.height ∧
      s.scrollCheck = (s.setFb (Memory.fill s.fbSize s.bg)).setCursor s.curX (s.height - 8)) := by
  have hf : ((fontH : Nat) : Int) = 8 := rfl
  unfold State.scrollCheck
  simp only [hf]
  by_cases h0 : s.curY + 8 - s.height ≤ 0
  · exact .inl ⟨h0, if_pos h0⟩
  · have hy : s.curY - (s.curY + 8 - s.height) = s.height - 8 := by omega
    rw [if_neg h0, hy]
    by_cases h1 : s.curY + 8 - s.height < s.height
    · exact .inr (.inl ⟨by omega, h1, by rw [if_pos h1]⟩)
    · exact .inr (.inr ⟨by omega, by omega, by rw [if_neg h1]⟩)

/-- `scrollCheck` writes the framebuffer and the cursor's y, and nothing else. -/
theorem State.scrollCheck_eq (s : State) :
    ∃ m y, s.scrollCheck = (s.setFb m).setCursor s.curX y := by
  rcases s.scrollCheck_cases with ⟨-, h⟩ | ⟨-, -, h⟩ | ⟨-, -, h⟩
  · exact ⟨s.fb, s.curY, h⟩
  · exact ⟨_, _, h⟩
  · exact ⟨_, _, h⟩

/-- `scrollCheck` keeps the canonical form. -/
theorem State.scrollCheck_wf (s : State) (hm : Memory.wf s.fbSize s.fb) :
    Memory.wf s.fbSize s.scrollCheck.fb := by
  rcases s.scrollCheck_cases with ⟨-, h⟩ | ⟨h0, h1, h⟩ | ⟨-, -, h⟩ <;> rw [h]
  · exact hm
  · exact Memory.wf_scroll _ _ _ _ _ (by omega) hm
  · exact Memory.wf_fill _ _

/-! Replies. -/

/-- Sending with the receiver there appends the bytes; with the receiver gone it stops the block. -/
theorem State.sendAll_eq (s : State) (bs : List Byte) :
    s.sendAll bs = if s.outConnected then s.setOutq (s.outq ++ bs)
      else if bs = [] then s else s.raiseFatal .outDisconnect := by
  induction bs generalizing s with
  | nil => simp [State.sendAll, State.setOutq]
  | cons b r ih =>
    by_cases h : s.outConnected = true
    · simp [State.sendAll, h, ih, State.setOutq]
    · simp [State.sendAll, h]

/-- A packet goes out whole, or the block stops and no byte goes out (R306). -/
theorem State.sendPacket_eq (s : State) (code : Byte) (payload : List Byte) :
    s.sendPacket code payload =
      if s.outConnected then
        s.setOutq (s.outq ++ ((code ||| 0x80#8) :: BitVec.ofNat 8 payload.length :: payload))
      else s.raiseFatal .outDisconnect := by
  rw [State.sendPacket, State.sendAll_eq]; simp

/-! Allocation. -/

/-- Taking the draw writes the draw's own two fields. -/
theorem State.afterAlloc_self (s : State) :
    s.afterAlloc = s.setDraws s.afterAlloc.allocAnswers s.afterAlloc.draws := by
  unfold State.afterAlloc
  split <;> rfl

theorem State.afterAlloc_eq (s : State) : ∃ as n, s.afterAlloc = s.setDraws as n := by
  unfold State.afterAlloc
  split <;> exact ⟨_, _, rfl⟩

end Sys2Proof.Machine
end

