-- ==== Sys2Proof/Laws/PerInstr.lean ====
section
/-! SUPPORT. A statement about each command as syntax: its encoding has the length R97 gives it, and begins
with a byte that alone or with the selectors decides that length. -/

namespace Sys2Proof.Laws.EncodedLength

/-- The encoding of a well-formed command is as long as R97 says, and the length function finds that length
from it. -/
def Statement (i : Instr) : Prop :=
  i.wellFormed = true → (encode i).length = i.byteLength ∧ knownLength (encode i) = i.byteLength

theorem unk (b : Byte) : Statement (.unk b) := by
  unfold Statement; revert b; decide

theorem left : Statement .left := fun _ => ⟨rfl, rfl⟩

theorem right : Statement .right := fun _ => ⟨rfl, rfl⟩

theorem down : Statement .down := fun _ => ⟨rfl, rfl⟩

theorem up : Statement .up := fun _ => ⟨rfl, rfl⟩

theorem cls : Statement .cls := fun _ => ⟨rfl, rfl⟩

theorem cr : Statement .cr := fun _ => ⟨rfl, rfl⟩

theorem clg : Statement .clg := fun _ => ⟨rfl, rfl⟩

theorem colour (a : Byte) : Statement (.colour a) :=
  fun _ => ⟨rfl, rfl⟩

theorem gcol (a b : Byte) : Statement (.gcol a b) :=
  fun _ => ⟨rfl, rfl⟩

theorem defcol (a b c d e : Byte) : Statement (.defcol a b c d e) :=
  fun _ => ⟨rfl, rfl⟩

theorem mode (a : Byte) : Statement (.mode a) :=
  fun _ => ⟨rfl, rfl⟩

theorem gpoll (a : Byte) : Statement (.gpoll a) :=
  fun _ => ⟨rfl, rfl⟩

theorem keynop : Statement .keynop := fun _ => ⟨rfl, rfl⟩

theorem qcursor : Statement .qcursor := fun _ => ⟨rfl, rfl⟩

theorem audio (a b c : Byte) (d e : Word16) : Statement (.audio a b c d e) :=
  fun _ => ⟨rfl, rfl⟩

theorem qmode : Statement .qmode := fun _ => ⟨rfl, rfl⟩

theorem logical (a : Byte) : Statement (.logical a) :=
  fun _ => ⟨rfl, rfl⟩

theorem xunkSub (t : Byte) : Statement (.xunkSub t) := by
  unfold Statement; revert t; decide

theorem xunkSel (s : Byte) : Statement (.xunkSel s) := by
  unfold Statement; revert s; decide

theorem defglyph (c r0 r1 r2 r3 r4 r5 r6 r7 : Byte) :
    Statement (.defglyph c r0 r1 r2 r3 r4 r5 r6 r7) := by
  intro h
  have hg : glyphSel c = true := h
  have h0 : c ≠ 0x00#8 := by rintro rfl; revert hg; decide
  exact ⟨rfl, by simp [encode, knownLength, h0, hg, Instr.byteLength]⟩

theorem plot (a : Byte) (b c : Word16) : Statement (.plot a b c) :=
  fun _ => ⟨rfl, rfl⟩

theorem origin (a b : Word16) : Statement (.origin a b) :=
  fun _ => ⟨rfl, rfl⟩

theorem home : Statement .home := fun _ => ⟨rfl, rfl⟩

theorem tab (a b : Byte) : Statement (.tab a b) :=
  fun _ => ⟨rfl, rfl⟩

theorem chr (c : Byte) : Statement (.chr c) := by
  unfold Statement; revert c; decide

theorem bs : Statement .bs := fun _ => ⟨rfl, rfl⟩

end Sys2Proof.Laws.EncodedLength
end

