-- ==== Sys2Proof/Laws/Step.lean ====
section
/-! SUPPORT. What an instruction, a tick and a step can do: the inversion lemmas that invariants are derived
from. -/

namespace Sys2Proof.Machine

/-- Every command ends in a next state. -/
theorem exec_next (i : Instr) (s : State) : ∃ t, exec i s = .next t := by
  cases i <;> exact ⟨_, rfl⟩

@[simp] theorem andThen_next (s : State) (k : State → Result) : andThen (.next s) k = k s := rfl

/-- The pacer's half of a tick writes the pacer's fields and the presentation port only. -/
theorem State.pacerHalf_eq (s : State) (now : Int) :
    s.pacerHalf now = s ∨ ∃ on tb fs tp,
      s.pacerHalf now = ((s.setBlink on tb).setPresented fs).setLastPresent tp := by
  unfold State.pacerHalf State.pacerCheck State.blinkUpdate
  split
  · split
    · right
      split
      · exact ⟨_, _, _, _, rfl⟩
      · exact ⟨s.blinkOn, s.lastBlinkUs, _, _, rfl⟩
    · exact .inl rfl
  · exact .inl rfl

/-- A frame has a row for each scanline, and in each row a colour for each column. -/
theorem State.rowsOf_get (s : State) (colour : Nat → Nat → Colour) (x y : Nat) (hx : x < s.width)
    (hy : y < s.height) : ((s.rowsOf colour)[y]?.bind (·[x]?)) = some (colour x y) := by
  simp [State.rowsOf, hx, hy]

/-- What `start` writes first does not change the allocation's draw. -/
theorem State.startClean_allocOk (s : State) (t0 : Int) (q : List Byte) (a b : Bool) (m : Byte) :
    (s.startClean t0 q a b).allocOk m = s.allocOk m := rfl

/-- What `start` writes first commutes with taking the draw. -/
theorem State.startClean_afterAlloc (s : State) (t0 : Int) (q : List Byte) (a b : Bool) :
    (s.startClean t0 q a b).afterAlloc = s.afterAlloc.startClean t0 q a b := by
  unfold State.afterAlloc
  dsimp only [State.startClean]
  split <;> rfl

/-- `block` writes the stream's head, `dec` and `halted` only. -/
theorem State.block_eq (s : State) (got : List Byte) :
    ∃ c, s.block got = (s.setInq [] (.blocked got (needed got))).setHalted c := by
  unfold State.block
  dsimp only
  split
  · exact ⟨s.halted, rfl⟩
  · exact ⟨_, rfl⟩

/-- Everything a pass can do, with the budget of one command (R130, D33). -/
theorem pass_cases (s : State) (h : s.halted = none) :
    (s.dec.got ++ s.inq = [] ∧ pass cmdsPerTick s = .next s) ∨
    (∃ n, decode (s.dec.got ++ s.inq) = .error (.truncated n) ∧
      pass cmdsPerTick s = .next (s.block (s.dec.got ++ s.inq))) ∨
    (∃ i rest, decode (s.dec.got ++ s.inq) = .ok (i, rest) ∧
      pass cmdsPerTick s = exec i (s.setInq rest .idle)) := by
  have hp : pass cmdsPerTick s = pass (0 + 1) s := rfl
  rw [hp]
  unfold pass
  rw [h]
  cases hd : decode (s.dec.got ++ s.inq) with
  | error e =>
    cases e with
    | noFirstByte =>
      left
      refine ⟨?_, rfl⟩
      cases hl : s.dec.got ++ s.inq with
      | nil => rfl
      | cons b r =>
        rw [hl] at hd
        unfold decode at hd
        cases hf : decodeFirst b r <;> simp [hf] at hd
    | truncated n => exact .inr (.inl ⟨n, rfl, rfl⟩)
  | ok p =>
    obtain ⟨i, rest⟩ := p
    right; right
    refine ⟨i, rest, rfl, ?_⟩
    obtain ⟨t, ht⟩ := exec_next i (s.setInq rest .idle)
    dsimp only
    rw [ht]
    rfl

/-- Everything a tick can do. -/
theorem tick_cases (now : Int) (s : State) :
    (∃ c, s.halted = some c ∧ tick now s = .next (s.setClock now)) ∨
    (s.halted = none ∧ s.dec.got ++ s.inq = [] ∧
      tick now s = .next ((s.setClock now).pacerHalf now)) ∨
    (s.halted = none ∧ (∃ n, decode (s.dec.got ++ s.inq) = .error (.truncated n)) ∧
      tick now s = .next ((s.setClock now).block (s.dec.got ++ s.inq))) ∨
    (s.halted = none ∧ ∃ i rest t, decode (s.dec.got ++ s.inq) = .ok (i, rest) ∧
      exec i ((s.setClock now).setInq rest .idle) = .next t ∧
      tick now s = .next (t.pacerHalf now)) := by
  cases h : s.halted with
  | some c => exact .inl ⟨c, rfl, by simp [tick, h]⟩
  | none =>
    right
    have ht : tick now s = andThen (pass cmdsPerTick (s.setClock now)) fun t => .next (t.pacerHalf now) := by
      simp [tick, h]
    rcases pass_cases (s.setClock now) (by simpa using h) with ⟨h1, h2⟩ | ⟨n, h1, h2⟩ | ⟨i, rest, h1, h2⟩
    · left; exact ⟨rfl, by simpa using h1, by rw [ht, h2]; rfl⟩
    · right; left
      refine ⟨rfl, ⟨n, by simpa using h1⟩, ?_⟩
      rw [ht, h2]
      obtain ⟨c, hb⟩ := (s.setClock now).block_eq ((s.setClock now).dec.got ++ (s.setClock now).inq)
      simp only [andThen_next, State.setClock_dec, State.setClock_inq] at hb ⊢
      rw [hb]
      simp [State.pacerHalf]
    · right; right
      obtain ⟨t, h3⟩ := exec_next i ((s.setClock now).setInq rest .idle)
      refine ⟨rfl, i, rest, t, by simpa using h1, h3, ?_⟩
      rw [ht, h2, h3]
      rfl

/-- Everything a boot step can do. -/
theorem bootStep_cases (s : State) :
    (∃ i rest, decode s.boot = .ok (i, rest) ∧ bootStep s = exec i (s.setBoot rest)) ∨
    ((∃ e, decode s.boot = .error e) ∧ bootStep s = .refused .bootMessageIncomplete) := by
  unfold bootStep
  cases decode s.boot with
  | ok p => exact .inl ⟨p.1, p.2, rfl, rfl⟩
  | error e => exact .inr ⟨⟨e, rfl⟩, rfl⟩

/-- Everything a step can do while a boot message is pending: one of its commands, with the schedule as it is
or past a `bootRuns`, or the next move of the schedule. -/
theorem State.bootAdvance_cases (s : State) :
    bootAdvance s = bootStep s ∨ (∃ es, s.env = .bootRuns :: es ∧ bootAdvance s = bootStep (s.setEnv es)) ∨
    ∃ e es, s.env = e :: es ∧ bootAdvance s = envMove e (s.setEnv es) := by
  unfold bootAdvance
  cases s.env with
  | nil => exact .inl rfl
  | cons e es =>
    cases e with
    | tick => exact .inl rfl
    | injectKey => exact .inl rfl
    | start => exact .inl rfl
    | bootRuns => exact .inr (.inl ⟨es, rfl, rfl⟩)
    | peerSend => exact .inr (.inr ⟨_, es, rfl, rfl⟩)
    | peerTake => exact .inr (.inr ⟨_, es, rfl, rfl⟩)
    | closeIn => exact .inr (.inr ⟨_, es, rfl, rfl⟩)
    | closeOut => exact .inr (.inr ⟨_, es, rfl, rfl⟩)

/-- Everything a step can do: a command of a pending boot message or its refusal, a free tick, or a move of
the schedule. -/
theorem step_cases (s : State) :
    (s.halted = none ∧ s.boot ≠ [] ∧ (step s = bootStep s ∨
      ∃ es, s.env = .bootRuns :: es ∧ step s = bootStep (s.setEnv es))) ∨
    ((s.halted ≠ none ∨ s.boot = []) ∧ s.env = [] ∧ step s = freeTick s) ∨
    (∃ e es, s.env = e :: es ∧ step s = envMove e (s.setEnv es)) := by
  have hs : step s = advance s := rfl
  rw [hs]
  unfold advance
  have tail : ∀ r, (match s.env with
        | [] => freeTick s
        | e :: rest => envMove e (s.setEnv rest)) = r →
      (s.env = [] ∧ r = freeTick s) ∨ ∃ e es, s.env = e :: es ∧ r = envMove e (s.setEnv es) := by
    intro r hr
    cases he : s.env with
    | nil => rw [he] at hr; exact .inl ⟨rfl, hr.symm⟩
    | cons e es => rw [he] at hr; exact .inr ⟨e, es, rfl, hr.symm⟩
  cases hh : s.halted with
  | some c =>
    rcases tail _ rfl with ⟨h1, h2⟩ | h
    · exact .inr (.inl ⟨.inl (by simp), h1, h2⟩)
    · exact .inr (.inr h)
  | none =>
    cases hb : s.boot with
    | nil =>
      rcases tail _ rfl with ⟨h1, h2⟩ | h
      · exact .inr (.inl ⟨.inr rfl, h1, h2⟩)
      · exact .inr (.inr h)
    | cons b bs =>
      dsimp only
      rcases s.bootAdvance_cases with h | h | h
      · exact .inl ⟨rfl, by simp, .inl h⟩
      · exact .inl ⟨rfl, by simp, .inr h⟩
      · exact .inr (.inr h)

/-- What an `inject_key` can do: append to `outq`, or stop the block. -/
theorem State.injectKey_eq (s : State) (code : Int) (down : Bool) :
    ∃ bs c, s.injectKey code down = (s.setOutq bs).setHalted c := by
  unfold State.injectKey
  cases h : s.halted with
  | some c => exact ⟨s.outq, s.halted, by simp [State.setOutq, State.setHalted]⟩
  | none =>
    simp only [State.sendAll_eq]
    split
    · exact ⟨_, s.halted, by simp [State.setOutq, State.setHalted]; rfl⟩
    · simp only [reduceCtorEq, if_false]
      exact ⟨s.outq, _, rfl⟩

end Sys2Proof.Machine
end

