-- ==== Sys2Proof/Tests/Slice0.lean ====
section
/-! SUPPORT. Small tests, with expected values from spec/95_test_vectors.md and the spec's tables, and a named
witness for the hypotheses of each statement. -/

namespace Sys2Proof.Tests

open Sys2Proof.Machine

/-! Well-formedness: each check refuses an ill-formed term. -/

theorem test_wf_unk : (Instr.unk 0x08#8).wellFormed = false := by decide
theorem test_wf_xunkSub : (Instr.xunkSub 0x80#8).wellFormed = false := by decide
theorem test_wf_xunkSel : (Instr.xunkSel 0x20#8).wellFormed = false := by decide
theorem test_wf_defglyph : (Instr.defglyph 0x1F#8 0 0 0 0 0 0 0 0).wellFormed = false := by decide
theorem test_wf_chr : (Instr.chr 0x7F#8).wellFormed = false ∧ (Instr.chr 0x1F#8).wellFormed = false := by decide

/-! Decoding: for every constructor a word written out from R95 and R96, most from 95_test_vectors.md 2.1. -/

theorem test_decode_unk : decode [0x1C#8] = .ok (.unk 0x1C#8, []) := by decide
theorem test_decode_left : decode [0x08#8] = .ok (.left, []) := by decide
theorem test_decode_right : decode [0x09#8] = .ok (.right, []) := by decide
theorem test_decode_down : decode [0x0A#8] = .ok (.down, []) := by decide
theorem test_decode_up : decode [0x0B#8] = .ok (.up, []) := by decide
theorem test_decode_cls : decode [0x0C#8] = .ok (.cls, []) := by decide
theorem test_decode_cr : decode [0x0D#8] = .ok (.cr, []) := by decide
theorem test_decode_clg : decode [0x10#8] = .ok (.clg, []) := by decide
theorem test_decode_colour : decode [0x11#8, 0xFF#8] = .ok (.colour 255#8, []) := by decide
theorem test_decode_gcol : decode [0x12#8, 0x00#8, 0x09#8] = .ok (.gcol 0#8 9#8, []) := by decide
theorem test_decode_defcol : decode [0x13#8, 0x01#8, 0x02#8, 0x03#8, 0x04#8, 0x05#8]
    = .ok (.defcol 1#8 2#8 3#8 4#8 5#8, []) := by decide
theorem test_decode_mode : decode [0x16#8, 0x01#8] = .ok (.mode 1#8, []) := by decide
theorem test_decode_gpoll : decode [0x17#8, 0x00#8, 0x80#8, 0x5A#8] = .ok (.gpoll 0x5A#8, []) := by decide
theorem test_decode_keynop : decode [0x17#8, 0x00#8, 0x81#8] = .ok (.keynop, []) := by decide
theorem test_decode_qcursor : decode [0x17#8, 0x00#8, 0x82#8] = .ok (.qcursor, []) := by decide
theorem test_decode_audio :
    decode [0x17#8, 0x00#8, 0x85#8, 0x00#8, 0x01#8, 0x40#8, 0xB8#8, 0x01#8, 0xE8#8, 0x03#8, 0x41#8]
      = .ok (.audio 0#8 1#8 64#8 440#16 1000#16, [0x41#8]) := by decide
theorem test_decode_qmode : decode [0x17#8, 0x00#8, 0x86#8] = .ok (.qmode, []) := by decide
theorem test_decode_logical : decode [0x17#8, 0x00#8, 0xC0#8, 0x01#8] = .ok (.logical 1#8, []) := by decide
theorem test_decode_xunkSub : decode [0x17#8, 0x00#8, 0x83#8, 0x0C#8] = .ok (.xunkSub 0x83#8, [0x0C#8]) := by
  decide
theorem test_decode_xunkSel : decode [0x17#8, 0x05#8, 0x41#8] = .ok (.xunkSel 5#8, [0x41#8]) := by decide
theorem test_decode_defglyph :
    decode [0x17#8, 0x41#8, 0x18#8, 0x24#8, 0x42#8, 0x7E#8, 0x42#8, 0x42#8, 0x42#8, 0x00#8]
      = .ok (.defglyph 0x41#8 0x18#8 0x24#8 0x42#8 0x7E#8 0x42#8 0x42#8 0x42#8 0x00#8, []) := by decide
theorem test_decode_plot : decode [0x19#8, 0x05#8, 0xFF#8, 0xFF#8, 0x00#8, 0x80#8]
    = .ok (.plot 5#8 0xFFFF#16 0x8000#16, []) := by decide
theorem test_decode_origin : decode [0x1D#8, 0x00#8, 0x01#8, 0xC0#8, 0x00#8]
    = .ok (.origin 256#16 192#16, []) := by decide
theorem test_decode_home : decode [0x1E#8] = .ok (.home, []) := by decide
theorem test_decode_tab : decode [0x1F#8, 0x03#8, 0x04#8] = .ok (.tab 3#8 4#8, []) := by decide
theorem test_decode_chr : decode [0x80#8] = .ok (.chr 0x80#8, []) := by decide
theorem test_decode_bs : decode [0x7F#8] = .ok (.bs, []) := by decide

/-- The numbering of the opcode table: PLOT_m__x__y is one hex number with byte 0 most significant (R95). -/
theorem test_tableWord_plot : decodeTableWord 48 0x19050A00FEFF = some (.plot 5#8 10#16 0xFFFE#16) := by decide

/-- The i16 values of 95_test_vectors.md 2.1. -/
theorem test_i16 : i16 (word16 0xFF#8 0xFF#8) = -1 ∧ i16 (word16 0x00#8 0x80#8) = -32768 ∧
    i16 (word16 0xFF#8 0x7F#8) = 32767 ∧ i16 (word16 0x80#8 0x02#8) = 640 := by decide

/-- The plot classes of 95_test_vectors.md 2.1. -/
theorem test_plotClass : [0x00#8, 0x04#8, 0x05#8, 0x45#8, 0x55#8, 0x91#8, 0x95#8, 0x08#8, 0x98#8, 0xFF#8].map
    plotClass = [.move, .move, .line, .dot, .triangle, .circleRel, .circleAbs, .unsupported, .unsupported,
      .unsupported] := by decide

/-! One step each, from a small state in mode 1 with concrete colours and blank glyphs. -/

/-- A running block in mode 1 (512 × 384), with a cleared screen, fg and gcol 15, bg 0. -/
def base : State :=
  { State.reset with
    mode := 1#8, fb := [], fg := 15, bg := 0, gcol := 15
    glyphs := Vector.replicate 224 Glyph.blank, boot := [] }

/-- `base` with the cursor at (x, y). -/
def at_ (x y : Int) : State := { base with curX := x, curY := y }

/-- `base` with slot 33, the code 0x41, holding a bitmap. -/
def withA (g : Glyph) (x y : Int) : State := { at_ x y with glyphs := base.glyphs.set 33 g }

/-- The glyph of vector T1: eight rows 0xFF. -/
def solid : Glyph := Vector.replicate 8 0xFF#8

/-- The glyph of vector T19 and program P2. -/
def letterA : Glyph := #v[0x18#8, 0x24#8, 0x42#8, 0x7E#8, 0x42#8, 0x42#8, 0x42#8, 0x00#8]

/-- The cursor after an instruction. -/
def cursorAfter (i : Instr) (s : State) : Int × Int := ((after i s).curX, (after i s).curY)

/-- I1. -/
theorem test_unk : (after (.unk 0x0E#8) base).diagLog = [.cmdUnknown 0x0E#8] := by decide
/-- T4 and T5. -/
theorem test_left : cursorAfter .left (at_ 16 8) = (8, 8) ∧ cursorAfter .left (at_ 0 8) = (0, 8) := by decide
/-- The last two steps of T11. -/
theorem test_right : cursorAfter .right (at_ 496 0) = (504, 0) ∧ cursorAfter .right (at_ 504 0) = (0, 8) := by
  decide
/-- T12: no scroll. -/
theorem test_right_bottom : cursorAfter .right (at_ 504 376) = (0, 384) := by decide
/-- T14: the cursor, and a pixel that moves up 8 rows. -/
theorem test_down : cursorAfter .down (at_ 16 376) = (16, 376) ∧
    (after .down { at_ 16 376 with fb := [(8 * 512 + 3, 7)] }).fb = [(3, 7)] := by decide
/-- T6 and T7. -/
theorem test_up : cursorAfter .up (at_ 0 0) = (0, 0) ∧ cursorAfter .up (at_ 0 16) = (0, 8) := by decide
/-- T17. -/
theorem test_cls : (after .cls { at_ 8 0 with fb := [(0, 15)] }).fb = [] ∧ cursorAfter .cls (at_ 8 0) = (0, 0) := by
  decide
/-- T8. -/
theorem test_cr : cursorAfter .cr (at_ 40 16) = (0, 16) := by decide
/-- T18. -/
theorem test_clg : (after .clg { at_ 8 0 with fb := [(0, 15)] }).fb = [] ∧ cursorAfter .clg (at_ 8 0) = (8, 0) := by
  decide
/-- PA4 and PA5: 127 mod 16 and 16 mod 16, in `fg`. -/
theorem test_colour_fg : (after (.colour 0x7F#8) base).fg = Config.paletteEntry 1#8 15 ∧
    (after (.colour 0x10#8) base).fg = Config.paletteEntry 1#8 0 := ⟨rfl, rfl⟩
/-- PA2: 0x81 selects `bg`. -/
theorem test_colour_bg : (after (.colour 0x81#8) base).bg = Config.paletteEntry 1#8 1 ∧
    (after (.colour 0x81#8) base).fg = 15 := ⟨rfl, rfl⟩
/-- PA6. -/
theorem test_gcol : (after (.gcol 3#8 0x89#8) base).gcol = Config.paletteEntry 1#8 9 := rfl
/-- PA7. -/
theorem test_defcol : after (.defcol 1#8 2#8 3#8 4#8 5#8) base = base := rfl
/-- W8. -/
theorem test_mode : (after (.mode 1#8) { base with allocAnswers := [true] }).outq =
    [0x86#8, 0x07#8, 0x00#8, 0x02#8, 0x80#8, 0x01#8, 0x40#8, 0x30#8, 0x10#8] := by decide
/-- I15. -/
theorem test_mode_alloc : (after (.mode 1#8) { base with allocAnswers := [false] }).halted = some (.alloc 1#8) ∧
    (after (.mode 1#8) { base with allocAnswers := [false] }).outq = [] := by decide
/-- I3. -/
theorem test_gpoll : (after (.gpoll 0x80#8) base).outq = [0x80#8, 0x01#8, 0x80#8] := by decide
/-- I4. -/
theorem test_keynop : after .keynop base = base := rfl
/-- The end of W9, and T13. -/
theorem test_qcursor : (after .qcursor (at_ 24 32)).outq = [0x82#8, 0x02#8, 0x03#8, 0x04#8] ∧
    (after .qcursor (at_ 0 384)).outq = [0x82#8, 0x02#8, 0x00#8, 0x30#8] := by decide
/-- I7. -/
theorem test_audio : after (.audio 0#8 1#8 64#8 440#16 1000#16) base = base := rfl
/-- I8. -/
theorem test_qmode : (after .qmode base).outq =
    [0x86#8, 0x07#8, 0x00#8, 0x02#8, 0x80#8, 0x01#8, 0x40#8, 0x30#8, 0x10#8] := by decide
/-- I10 and I11. -/
theorem test_logical : (after (.logical 0x80#8) base).logical = true ∧
    (after (.logical 0#8) { base with logical := true }).logical = false := by decide
/-- I5. -/
theorem test_xunkSub : (after (.xunkSub 0x83#8) base).diagLog = [.extUnknownSub 0x83#8] := by decide
/-- I6. -/
theorem test_xunkSel : (after (.xunkSel 5#8) base).diagLog = [.extUnknownSel 5#8] := by decide
/-- I12: slot 95. -/
theorem test_defglyph : (after (.defglyph 0x7F#8 0x11#8 0x22#8 0x33#8 0x44#8 0x55#8 0x66#8 0x77#8 0x88#8)
    base).glyphs[95] = #v[0x11#8, 0x22#8, 0x33#8, 0x44#8, 0x55#8, 0x66#8, 0x77#8, 0x88#8] := by decide
/-- The first PLOT vector of 2.4, cut to four pixels: the line goes from p2 to p1. -/
theorem test_plot_line : (after (.plot 5#8 3#16 0#16) base).fb = [(0, 15), (1, 15), (2, 15), (3, 15)] ∧
    (after (.plot 5#8 3#16 0#16) base).hist = ⟨⟨3, 0⟩, ⟨0, 0⟩, ⟨0, 0⟩⟩ := by decide
/-- X6: the point is pushed, the diagnostic recorded. -/
theorem test_plot_unsupported : (after (.plot 8#8 7#16 9#16) base).hist = ⟨⟨7, 9⟩, ⟨0, 0⟩, ⟨0, 0⟩⟩ ∧
    (after (.plot 8#8 7#16 9#16) base).diagLog = [.plotUnsupported 8#8] := by decide
/-- The first origin vector of 2.4, with a negative y. -/
theorem test_origin : (after (.origin 10#16 0xFFF6#16) base).origin = ⟨10, -10⟩ := by decide
/-- T9. -/
theorem test_home : cursorAfter .home (at_ 40 16) = (0, 0) := by decide
/-- T15 and T16. -/
theorem test_tab : cursorAfter (.tab 64#8 0#8) base = (0, 0) ∧ cursorAfter (.tab 63#8 47#8) base = (504, 376) := by
  decide
/-- T19: row 32 has two foreground pixels. -/
theorem test_chr : (List.range 8).map (fun (k : Nat) =>
      (after (.chr 0x41#8) (withA letterA 24 32)).fbRead ⟨24 + k, 32⟩) = [0, 0, 0, 15, 15, 0, 0, 0] ∧
    cursorAfter (.chr 0x41#8) (withA letterA 24 32) = (32, 32) := by decide +kernel
/-- T21: drawn at the bottom right, then scrolled by 8. -/
theorem test_chr_scroll : cursorAfter (.chr 0x41#8) (withA solid 504 376) = (0, 376) ∧
    (after (.chr 0x41#8) (withA solid 504 376)).fbRead ⟨511, 368⟩ = 15 ∧
    (after (.chr 0x41#8) (withA solid 504 376)).fbRead ⟨511, 376⟩ = 0 := by decide +kernel
/-- The second half of T2: the cell's pixels go, a neighbour's stays. -/
theorem test_bs : (after .bs { at_ 8 0 with fb := [(0, 15), (7, 15), (8, 15)] }).fb = [(8, 15)] ∧
    cursorAfter .bs (at_ 8 0) = (0, 0) := by decide

/-! Geometry vectors of 95_test_vectors.md 2.4. -/

theorem test_line : linePoints ⟨2, 1⟩ ⟨0, 0⟩ = [⟨2, 1⟩, ⟨1, 0⟩, ⟨0, 0⟩] ∧
    linePoints ⟨0, 0⟩ ⟨2, 1⟩ = [⟨0, 0⟩, ⟨1, 1⟩, ⟨2, 1⟩] := by decide
theorem test_edge : edgeXs ⟨0, 0⟩ ⟨-6, 4⟩ = [0, -2, -3, -5, -6] ∧ edgeXs ⟨2, 5⟩ ⟨8, 1⟩ = [2, 4, 5, 7, 8] ∧
    edgeXs ⟨0, 0⟩ ⟨10, 3⟩ = [0, 3, 7, 10] := by decide
/-- W11: the right triangle's spans. -/
theorem test_triangle : trianglePoints ⟨0, 4⟩ ⟨4, 0⟩ ⟨0, 0⟩ =
    hlinePoints 0 4 0 ++ hlinePoints 0 3 1 ++ hlinePoints 0 2 2 ++ hlinePoints 0 1 3 ++ hlinePoints 0 0 4 := by
  decide
/-- The last triangle of the table but one: a collinear one. -/
theorem test_triangle_collinear : trianglePoints ⟨0, 0⟩ ⟨2, 2⟩ ⟨4, 4⟩ =
    [⟨0, 0⟩, ⟨1, 1⟩, ⟨2, 2⟩, ⟨3, 3⟩, ⟨4, 4⟩] := by decide
/-- C-1: v0 to v8 and v13, v20, v27. -/
theorem test_circle : [0, 1, 2, 3, 4, 5, 6, 7, 8, 13, 20, 27].map (circleVertex ⟨10, 10⟩ 25) =
    [⟨15, 10⟩, ⟨15, 11⟩, ⟨15, 12⟩, ⟨14, 13⟩, ⟨14, 14⟩, ⟨13, 14⟩, ⟨12, 15⟩, ⟨11, 15⟩, ⟨10, 15⟩, ⟨6, 13⟩, ⟨6, 6⟩,
      ⟨13, 6⟩] := by decide
/-- C-2: the radius √8. -/
theorem test_circle_sqrt : [0, 1, 4, 7, 9, 15].map (circleVertex ⟨0, 0⟩ 8) =
    [⟨3, 0⟩, ⟨3, 1⟩, ⟨2, 2⟩, ⟨1, 3⟩, ⟨-1, 3⟩, ⟨-3, 1⟩] := by decide
/-- The transform table of 2.4, in logical mode with origin (100, 50), and (−1, −1) with origin (0, 0). -/
theorem test_transform : ({ base with logical := true, origin := ⟨100, 50⟩ } : State).transform ⟨640, 512⟩
    = ⟨356, 142⟩ ∧ ({ base with logical := true } : State).transform ⟨-1, -1⟩ = ⟨0, 384⟩ := by decide

/-! The tick and the environment. -/

/-- `base` with bytes on `inq` and a schedule. -/
def run (bs : List Byte) (es : List EnvMove) : State := { base with inq := bs, env := es }

/-- The state after a step, or the state before it. -/
def stepped (s : State) : State :=
  match step s with
  | .next t => t
  | _ => s

/-- H1 and the stall table of 2.6: `11` waits for its argument. -/
theorem test_blocked : (stepped (run [0x11#8] [.tick 10000])).dec = .blocked [0x11#8] 1 ∧
    (stepped (run [0x11#8] [.tick 10000])).presented = [] := by decide
/-- The stall table's next row: `0C` completes COLOUR, and does not clear the screen. -/
theorem test_resume : pass cmdsPerTick { run [0x0C#8] [] with dec := .blocked [0x11#8] 1, fb := [(0, 15)] }
    = .next { base with fg := Config.paletteEntry 1#8 12, fb := [(0, 15)] } := rfl
/-- I17. -/
theorem test_in_disconnect : (stepped { run [0x11#8] [.tick 0] with inConnected := false }).halted
    = some .inDisconnect := by decide
/-- I16 without the mode reset: a query with the receiver gone. -/
theorem test_out_disconnect : (after (.gpoll 0#8) { base with outConnected := false }).halted
    = some .outDisconnect := by decide
/-- X3: the code is taken mod 256. -/
theorem test_injectKey : (stepped (run [] [.injectKey 0x141 true])).outq
    = [0x81#8, 0x04#8, 0x41#8, 0x00#8, 0x00#8, 0x01#8] := by decide
/-- X5. -/
theorem test_halted_tick : tick 0 { run [0x0C#8] [] with halted := some (.alloc 1#8) }
    = .next { run [0x0C#8] [] with halted := some (.alloc 1#8) } := rfl

/-- R285: the picture shows the OPEN cursor shape while the blink is on, and the copy while it is off. -/
theorem test_picture : base.shownAt 3 4 = base.colourAt 3 4 ∧ ({ at_ 8 16 with blinkOn := true } : State).shownAt 3 4
    = Config.cursorShape 512 384 8 16 3 4 (base.colourAt 3 4) := ⟨rfl, rfl⟩

/-! Witnesses: for each statement with hypotheses a state and operands that meet them. -/

theorem witness_DecodeOfEncode : (Instr.chr 0x20#8).wellFormed = true ∧ (Instr.chr 0x7E#8).wellFormed = true ∧
    (Instr.chr 0x80#8).wellFormed = true ∧ (Instr.chr 0xFF#8).wellFormed = true ∧
    (Instr.unk 0x07#8).wellFormed = true ∧ (Instr.xunkSel 0x01#8).wellFormed = true ∧
    (Instr.xunkSel 0x1F#8).wellFormed = true ∧ (Instr.xunkSub 0x00#8).wellFormed = true ∧
    (Instr.defglyph 0x20#8 0 0 0 0 0 0 0 0).wellFormed = true ∧
    (Instr.defglyph 0xFF#8 0 0 0 0 0 0 0 0).wellFormed = true := by decide

theorem witness_EncodeOfDecode : decode [0x1F#8, 0x03#8, 0x04#8, 0x41#8] = .ok (.tab 3#8 4#8, [0x41#8]) := by
  decide

/-- Each clause of LengthFunctionDecides, at both sides of its boundaries. -/
theorem witness_LengthFunctionDecides :
    decode [0x19#8, 0#8, 0#8, 0#8, 0#8] = .error (.truncated 1) ∧
    decode [0x19#8, 0#8, 0#8, 0#8, 0#8, 0#8, 7#8] = .ok (.plot 0#8 0#16 0#16, [7#8]) ∧
    decode [0x17#8, 0x1F#8, 7#8] = .ok (.xunkSel 0x1F#8, [7#8]) ∧
    decode [0x17#8, 0x20#8, 7#8] = .error (.truncated 7) ∧
    decode [0x17#8, 0x00#8, 0x80#8] = .error (.truncated 1) ∧
    decode [0x17#8, 0x00#8, 0x84#8, 7#8] = .ok (.xunkSub 0x84#8, [7#8]) ∧
    decode [0x17#8, 0x00#8, 0x85#8] = .error (.truncated 7) := by decide

/-- A whole command, a command whose first byte was read before, with and without a schedule. -/
theorem witness_StepRunsDecodedCommand :
    let s : State := { run [0x0C#8] [.tick 5] with dec := .blocked [0x11#8] 1 }
    (s.halted = none ∧ s.boot = [] ∧ decode (s.dec.got ++ s.inq) = .ok (.colour 0x0C#8, []) ∧
      s.env = [.tick 5]) ∧
    ((run [0x0C#8] []).halted = none ∧ (run [0x0C#8] []).boot = [] ∧
      decode ((run [0x0C#8] []).dec.got ++ (run [0x0C#8] []).inq) = .ok (.cls, []) ∧ (run [0x0C#8] []).env = []) := by
  decide

/-- With a scheduled tick and with nothing scheduled, on a connected channel and on one that is not. -/
theorem witness_TruncatedCommandBlocks :
    let s := run [0x17#8, 0x41#8] [.tick 5]
    (s.halted = none ∧ s.dec.got ++ s.inq ≠ [] ∧
      (s.dec.got ++ s.inq).length < knownLength (s.dec.got ++ s.inq) ∧ s.inConnected = true ∧ s.boot = [] ∧
      s.env = [.tick 5]) ∧
    (run [0x17#8, 0x41#8] []).env = [] ∧ ({ s with inConnected := false } : State).halted = none := by decide

theorem witness_IdleTickIsThePacerCheck : base.halted = none ∧ base.dec = .idle ∧ base.inq = [] ∧ base.boot = [] ∧
    base.env = [] ∧ (run [] [.tick 5]).env = [.tick 5] := by decide

theorem witness_StoppedBlockStaysStopped :
    let s : State := { run [] [.closeIn] with halted := some .inDisconnect }
    s.halted = some .inDisconnect ∧
      ∀ t0 q a b, s.env.head? ≠ some (.start t0 q a b) := by
  refine ⟨rfl, fun t0 q a b h => ?_⟩
  cases h

theorem witness_InjectKeySendsPacket : base.halted = none ∧ base.outConnected = true ∧
    ({ base with outConnected := false } : State).halted = none := by decide

/-- Each move, on a running block, on a stopped one, and the peer's with a boot message pending; and the peer's
send on a channel that is not connected. -/
theorem witness_EnvironmentMovesActOnTheChannels :
    (∀ e ∈ [.peerSend [0x41#8], .peerSend [], .peerTake 0, .closeIn, .closeOut, .injectKey 1 true, .tick 0,
        .start 0 [] true true, .bootRuns],
      (run [] [e]).halted = none ∧ (run [] [e]).boot = [] ∧ (run [] [e]).env = e :: [] ∧
        (run [] [e]).inConnected = true ∧
        ({ run [] [e] with halted := some .outDisconnect, boot := [0x41#8] } : State).halted ≠ none) ∧
    let s : State := { run [] [.peerSend [0x41#8]] with inConnected := false, boot := [0x41#8] }
    s.halted = none ∧ s.boot ≠ [] ∧ s.inConnected = false := by decide

/-- R311, R306: the peer's receiver goes away between two boot commands, and the next one that replies stops the
block. -/
theorem test_boot_closeOut : (stepped (stepped { run [] [.closeOut, .bootRuns] with
      boot := [0x17#8, 0x00#8, 0x82#8, 0x41#8] })).halted = some .outDisconnect := by decide

/-- A whole command, a boot message that is not whole commands, and each schedule with which a boot command runs. -/
theorem witness_BootMessageRunsFirst :
    (∀ es ∈ [[], [.tick 0], [.injectKey 1 true], [.start 0 [] true true], [.bootRuns]],
      ({ run [] es with boot := [0x41#8] } : State).halted = none ∧
        ({ run [] es with boot := [0x41#8] } : State).boot ≠ [] ∧
        decode ({ run [] es with boot := [0x41#8] } : State).boot = .ok (.chr 0x41#8, [])) ∧
    step { base with boot := [0x11#8] } = .refused .bootMessageIncomplete := ⟨by decide, rfl⟩

theorem witness_StartBuildsTheStateAgain :
    ({ base with allocAnswers := [true] } : State).allocOk defaultMode = true ∧
    ({ base with allocAnswers := [false] } : State).allocOk defaultMode = false ∧
    base.allocOk defaultMode = Config.freeAlloc 0 defaultMode := ⟨rfl, rfl, rfl⟩

/-- A state that meets all four invariants, in which a step answers a next state. -/
theorem witness_StepKeepsInvariants :
    let s : State := { run [0x0C#8] [.tick 0] with lastPresentUs := 1, dec := .blocked [0x11#8] 1, fb := [(3, 15)] }
    s.FbCanonical ∧ s.CursorSound ∧ s.ModeKnown ∧ s.OriginSound ∧ s.DecoderSound ∧ ∃ t, step s = .next t := by
  refine ⟨by decide, by decide, by decide, by decide, by decide, _, rfl⟩

/-- Each case: no frame, one frame in a tick that is due whatever mode 1's refresh rate, and a new start. -/
theorem witness_StepPresentsAtMostOnce :
    (∃ t, step (run [] [.closeIn]) = .next t ∧ t.presented = []) ∧
    (∃ t f, step (run [] [.tick 1000000]) = .next t ∧ t.presented = [f]) ∧
    ∃ t, step { run [] [.start 0 [] true true] with presented := [base.frame], allocAnswers := [true] } = .next t ∧
      t.presented = [] := by
  refine ⟨⟨_, rfl, rfl⟩, ?_, _, rfl, rfl⟩
  have due (s : State) (h : s.lastPresentUs = 0) : 1000000 - s.lastPresentUs ≥ s.intervalUs := by
    have : 1000000 / s.refreshHz ≤ 1000000 := Nat.div_le_self ..
    simp only [State.intervalUs, usPerS]
    omega
  let s : State := { base with clock := 1000000 }
  refine ⟨s.pacerCheck 1000000, (s.blinkUpdate 1000000).frame, rfl, ?_⟩
  unfold State.pacerCheck
  rw [if_pos (due s rfl)]
  rfl

theorem witness_RightAcrossARowWrapsOnce : base.curX = 0 ∧ base.width = 8 * base.cols ∧ 63 < base.cols ∧
    64 ≤ base.cols ∧ ¬64 < base.cols := by decide

/-- ChrRendersAdvancesScrolls: an overflow of 0, of 8, and one of the whole height. -/
theorem witness_ChrRendersAdvancesScrolls : printable 0x20#8 = true ∧ printable 0xFF#8 = true ∧
    (at_ 0 376).nextCell.2 + 8 - (at_ 0 376).height = 0 ∧ (at_ 504 376).nextCell.2 + 8 - (at_ 504 376).height = 8 ∧
    (at_ 0 760).nextCell.2 + 8 - (at_ 0 760).height = 384 := by decide

/-- DownScrollsByTheOverflow: an overflow of 0 and of 8. -/
theorem witness_DownScrollsByTheOverflow : (at_ 0 368).curY + 16 - (at_ 0 368).height = 0 ∧
    (at_ 0 376).curY + 16 - (at_ 0 376).height = 8 ∧
    inFrame (at_ 0 376).width (at_ 0 376).height ⟨511, 383⟩ = true := by decide

theorem witness_GlyphBackspaceSpaceLeavesBackground : printable 0x41#8 = true ∧ (0 : Int) ≤ (at_ 496 376).curX ∧
    (at_ 496 376).curX + 8 < (at_ 496 376).width ∧ (at_ 496 376).curY + 8 ≤ (at_ 496 376).height ∧
    (at_ 496 376).glyphs[(0 : Fin 224)] = Glyph.blank ∧
    inFrame (at_ 496 376).width (at_ 496 376).height ⟨503, 383⟩ = true := by decide

theorem witness_DefglyphStoresItsRows : glyphSel 0x20#8 = true ∧ glyphSel 0xFF#8 = true := by decide

theorem witness_RedefinedGlyphRendersAtOnce : printable 0x41#8 = true ∧
    (at_ 0 376).nextCell.2 + 8 ≤ (at_ 0 376).height := by decide

theorem witness_coordinate_modes : base.logical = false ∧ ({ base with logical := true } : State).logical = true := by
  decide

/-- TriangleHasOneSpanPerScanline: vertices in order, on one scanline and not, with the middle one at the top,
between and at the bottom. -/
theorem witness_TriangleHasOneSpanPerScanline :
    let le := fun p q : Point => p.y < q.y ∨ p.y = q.y ∧ p.x ≤ q.x
    (le ⟨0, 1⟩ ⟨3, 1⟩ ∧ le ⟨3, 1⟩ ⟨7, 1⟩) ∧ (le ⟨0, 0⟩ ⟨4, 0⟩ ∧ le ⟨4, 0⟩ ⟨0, 4⟩) ∧
      (le ⟨0, 0⟩ ⟨6, 2⟩ ∧ le ⟨6, 2⟩ ⟨2, 6⟩) ∧ le ⟨2, 0⟩ ⟨0, 3⟩ ∧ le ⟨0, 3⟩ ⟨5, 3⟩ := by decide

/-- EdgeWalkIsTheAccumulator at |Δy| = 1. -/
theorem witness_EdgeWalkIsTheAccumulator : (0 : Int) ≠ 1 ∧ edgeXs ⟨0, 0⟩ ⟨7, 1⟩ = [0, 7] := by decide

/-- ColourSelectsTextColours: the boundary between the two selections. -/
theorem witness_ColourSelectsTextColours : (0x7F#8).toNat < 128 ∧ 128 ≤ (0x80#8).toNat := by decide

theorem witness_QueriesReply : base.outConnected = true := rfl

theorem witness_QueriesWithoutReceiverStop : ({ base with outConnected := false } : State).outConnected = false := rfl

theorem witness_ModeSwitchResetsAndReplies : modeTable 1#8 = some modeOne ∧
    ({ base with allocAnswers := [true] } : State).allocOk 1#8 = true ∧ base.outConnected = true := ⟨rfl, rfl, rfl⟩

/-- ModeSwitchFailures: a failed allocation, a receiver that is gone, and the draw with no answer scheduled. That
a byte is no key of ModeTable has no witness: all rows but row 1 are OPEN (D3). -/
theorem witness_ModeSwitchFailures : (modeTable 1#8).isSome = true ∧
    ({ base with allocAnswers := [false] } : State).allocOk 1#8 = false ∧
    ({ base with allocAnswers := [true] } : State).allocOk 1#8 = true ∧
    ({ base with outConnected := false } : State).outConnected = false ∧ base.allocAnswers = [] :=
  ⟨rfl, rfl, rfl, rfl, rfl⟩

theorem witness_CommandsWriteOnlyTheirFields : (∃ t, exec (.plot 5#8 3#16 0#16) base = .next t) ∧
    FieldGroup.cursor ∉ mayWrite (.plot 5#8 3#16 0#16) := ⟨⟨_, rfl⟩, by decide⟩

/-- Two states that differ in the framebuffer, the colours and the glyphs only. -/
theorem witness_RepliesShowOnlyModeAndCursor :
    samePeerView base { withA solid 0 0 with fb := [(0, 15)], fg := 3, bg := 2 } := ⟨rfl, rfl, rfl, rfl, rfl, rfl, rfl⟩

/-- The pacer's boundary in mode 1, whatever its OPEN refresh rate: due at the interval, not one µs before. -/
theorem witness_PacerCheckPresentsWhenDue :
    let interval : Int := (1000000 / base.refreshHz : Nat)
    base.lastPresentUs + interval ≤ interval ∧ ¬base.lastPresentUs + interval ≤ interval - 1 := by
  have h : base.lastPresentUs = 0 := rfl
  intro interval
  omega

end Sys2Proof.Tests
end

section
/-! The i16 fields of the encoding (R92): the word of two bytes, its value, and the commands that carry it. -/

namespace Sys2Proof.Machine

/-- R92's unsigned reading of the two bytes: the second byte weighs 256. -/
theorem toNat_word16 (lo hi : Byte) : (word16 lo hi).toNat = hi.toNat * 256 + lo.toNat := by
  rw [word16, BitVec.toNat_append, ← Nat.shiftLeft_add_eq_or_of_lt lo.isLt, Nat.shiftLeft_eq]

theorem i16_bounds (w : Word16) : -32768 ≤ i16 w ∧ i16 w ≤ 32767 := by
  have hw := w.isLt
  unfold i16
  split <;> constructor <;> omega

/-- The word's sign is the sign bit of its high byte, since the low byte cannot carry into it. -/
theorem i16_word16 (lo hi : Byte) : i16 (word16 lo hi) =
    (hi.toNat * 256 + lo.toNat : Int) - (if 0x80 ≤ hi.toNat then 65536 else 0) := by
  have hlo := lo.isLt
  rw [i16, toNat_word16]
  by_cases hneg : 0x80 ≤ hi.toNat
  · rw [if_neg (by omega), if_pos hneg]
    omega
  · rw [if_pos (by omega), if_neg hneg]
    omega

theorem decode_plot_bytes (m x0 x1 y0 y1 : Byte) (rest : List Byte) :
    decode (0x19#8 :: m :: x0 :: x1 :: y0 :: y1 :: rest) = .ok (.plot m (word16 x0 x1) (word16 y0 y1), rest) := rfl

theorem decode_origin_bytes (x0 x1 y0 y1 : Byte) (rest : List Byte) :
    decode (0x1D#8 :: x0 :: x1 :: y0 :: y1 :: rest) = .ok (.origin (word16 x0 x1) (word16 y0 y1), rest) := rfl

/-- Settles O5: the value from the two bytes' unsigned reading and the high byte's sign bit, the range from
the word alone, and the fields from the decoder's rows for PLOT and ORIGIN. -/
theorem fieldI16IsTwosComplement : Obligations.FieldI16IsTwosComplement :=
  ⟨fun lo hi => ⟨i16_word16 lo hi, i16_bounds (word16 lo hi)⟩,
    fun m x0 x1 y0 y1 rest =>
      ⟨decode_plot_bytes m x0 x1 y0 y1 rest, decode_origin_bytes x0 x1 y0 y1 rest⟩⟩

end Sys2Proof.Machine
end

section
/-! The text cursor and the cell renderer (R170–R185): what BS, LEFT, UP, CR and CLS leave. -/

namespace Sys2Proof.Machine

/-! The renderer (R170, R171). -/

/-- A cell's painted pixels: each point of the cell, in the colour its bit chooses (R170). -/
theorem mem_cellPixels (g : Glyph) (x y : Int) (fg bg : Pixel) (p : Point) (c : Pixel) :
    (p, c) ∈ cellPixels g x y fg bg ↔
      inCell x y p ∧ c = if glyphBit g (p.y - y).toNat (p.x - x).toNat then fg else bg := by
  obtain ⟨px, py⟩ := p
  simp only [cellPixels, List.mem_flatMap, List.mem_map, List.mem_range, fontH, fontW, Prod.mk.injEq,
    Point.mk.injEq, inCell]
  constructor
  · rintro ⟨row, hrow, col, hcol, ⟨rfl, rfl⟩, rfl⟩
    rw [add_sub_cancel_left, add_sub_cancel_left]
    exact ⟨by omega, rfl⟩
  · rintro ⟨hcell, rfl⟩
    exact ⟨(py - y).toNat, by omega, (px - x).toNat, by omega, by omega, rfl⟩

/-- R170's pixel by the model's own reading of the bitmap. -/
theorem State.rendered_eq_glyphBit (s : State) (g : Glyph) (p : Point) :
    s.rendered g p = if inCell s.curX s.curY p then
      if glyphBit g (p.y - s.curY).toNat (p.x - s.curX).toNat then s.fg else s.bg
    else s.fbRead p := rfl

/-- R170 and R171 at every pixel of the framebuffer. No other point inside the frame shares its address, so
only the painted point it is can have changed it. -/
theorem State.read_renderGlyph (s : State) (g : Glyph) (p : Point) (hp : inFrame s.width s.height p = true) :
    (s.renderGlyph g).fb.read (pixelAddr s.width p) = s.rendered g p := by
  rw [State.rendered_eq_glyphBit]
  by_cases hc : inCell s.curX s.curY p
  · rw [if_pos hc]
    refine s.paint_read_of_mem _ _ _ ?_ ⟨(p, _), (mem_cellPixels ..).2 ⟨hc, rfl⟩, hp, rfl⟩
    rintro ⟨q, c⟩ hq hf ha
    obtain rfl := pixelAddr_inj s.width s.height q p hf hp ha
    exact ((mem_cellPixels ..).1 hq).2
  · rw [if_neg hc]
    refine s.paint_read_of_not_mem _ _ ?_
    rintro ⟨q, c⟩ hq ⟨hf, ha⟩
    obtain rfl := pixelAddr_inj s.width s.height q p hf hp ha
    exact hc ((mem_cellPixels ..).1 hq).1

/-- No bit of the blank bitmap is set, inside its eight rows or beyond them. -/
theorem glyphBit_blank (row col : Nat) : glyphBit Glyph.blank row col = false := by
  have hrow : Glyph.blank.toList.getD row 0#8 = 0#8 := by
    rw [List.getD_eq_getElem?_getD]
    exact List.getElem?_getD_replicate_default_eq (d := 0#8) 8 row
  rw [glyphBit, hrow, BitVec.getLsbD_zero]

/-- The blank bitmap leaves its cell all `bg` (R172). -/
theorem State.rendered_blank (s : State) (p : Point) :
    s.rendered Glyph.blank p = if inCell s.curX s.curY p then s.bg else s.fbRead p := by
  rw [State.rendered_eq_glyphBit, glyphBit_blank, if_neg Bool.false_ne_true]

/-- BS renders the blank glyph at the cursor that `left()` leaves (R183). -/
theorem exec_bs (s : State) : exec .bs s = .next { s with
    fb := (s.cursorLeft.renderGlyph Glyph.blank).fb
    curX := max 0 (s.curX - 8) } := rfl

/-- Settles O33: the pixels are those of the blank glyph rendered after `left()`. -/
theorem backspaceBlanksTheCell : Obligations.BackspaceBlanksTheCell := by
  refine ⟨fun _ => rfl, fun s => ⟨_, exec_bs s, fun p hp => ?_⟩⟩
  calc (s.cursorLeft.renderGlyph Glyph.blank).fb.read (pixelAddr s.width p)
      = s.cursorLeft.rendered Glyph.blank p := s.cursorLeft.read_renderGlyph Glyph.blank p hp
    _ = if inCell (max 0 (s.curX - 8)) s.curY p then s.bg else s.fbRead p := s.cursorLeft.rendered_blank p

/-! Cursor moves (R173, R174, R179). -/

/-- One cell back along either axis, clamped at 0. -/
theorem max_zero_sub_eight (v : Int) : max 0 (v - 8) = if v ≤ 8 then 0 else v - 8 := by
  by_cases hv : v ≤ 8
  · rw [if_pos hv, max_eq_left (by omega)]
  · rw [if_neg hv, max_eq_right (by omega)]

theorem exec_left (s : State) : exec .left s = .next (s.setCursor (max 0 (s.curX - 8)) s.curY) := rfl

theorem exec_up (s : State) : exec .up s = .next (s.setCursor s.curX (max 0 (s.curY - 8))) := rfl

/-- Settles O23: LEFT and UP by the clamp's two cases; CR as it stands. -/
theorem leftUpCrMoveTheCursor : Obligations.LeftUpCrMoveTheCursor := by
  intro s rest
  refine ⟨rfl, rfl, rfl, ?_, ?_, rfl⟩
  · rw [exec_left, max_zero_sub_eight]
    rfl
  · rw [exec_up, max_zero_sub_eight]
    rfl

/-! Clear (R181). -/

/-- Every pixel of a cleared framebuffer is `bg`. -/
theorem State.read_clearFb (s : State) (a : Nat) (ha : a < s.width * s.height) : s.clearFb.fb.read a = s.bg := by
  rw [State.clearFb_eq, State.setFb_fb, Memory.read_fill]
  exact if_pos ha

theorem exec_cls (s : State) : exec .cls s = .next { s with fb := s.clearFb.fb, curX := 0, curY := 0 } := rfl

/-- Settles O28: the framebuffer is that of `clearFb`. -/
theorem clsClearsAndHomes : Obligations.ClsClearsAndHomes :=
  ⟨fun _ => rfl, fun s => ⟨s.clearFb.fb, exec_cls s, s.read_clearFb⟩⟩

end Sys2Proof.Machine
end

section
/-! The decoder and the encoder against each other (R91–R105), and the length function (R97). -/

namespace Sys2Proof

open Sys2Proof.Machine (toNat_word16)

/-! The two bytes of an i16 field (R92). -/

theorem toNat_loByte (w : Word16) : (loByte w).toNat = w.toNat % 256 := BitVec.toNat_setWidth ..

theorem toNat_hiByte (w : Word16) : (hiByte w).toNat = w.toNat / 256 := by
  have hw := w.isLt
  rw [hiByte, BitVec.toNat_setWidth, BitVec.toNat_ushiftRight, Nat.shiftRight_eq_div_pow]
  omega

@[simp] theorem loByte_word16 (lo hi : Byte) : loByte (word16 lo hi) = lo := by
  have hlo := lo.isLt
  apply BitVec.eq_of_toNat_eq
  rw [toNat_loByte, toNat_word16]
  omega

@[simp] theorem hiByte_word16 (lo hi : Byte) : hiByte (word16 lo hi) = hi := by
  have hlo := lo.isLt
  apply BitVec.eq_of_toNat_eq
  rw [toNat_hiByte, toNat_word16]
  omega

@[simp] theorem word16_loByte_hiByte (w : Word16) : word16 (loByte w) (hiByte w) = w := by
  apply BitVec.eq_of_toNat_eq
  rw [toNat_word16, toNat_loByte, toNat_hiByte]
  omega

/-! The rows of the first-byte map and the extended map that stand for a range of bytes (R95, R96). -/

/-- The first bytes that R95 gives a row of their own. -/
def namedFirst (b : Byte) : Bool :=
  b ∈ [0x08#8, 0x09#8, 0x0A#8, 0x0B#8, 0x0C#8, 0x0D#8, 0x10#8, 0x11#8, 0x12#8, 0x13#8, 0x16#8, 0x17#8, 0x19#8,
    0x1D#8, 0x1E#8, 0x1F#8, 0x7F#8]

theorem decodeFirst_of_not_named (b : Byte) (rest : List Byte) (h : namedFirst b = false) :
    decodeFirst b rest = if 0x20#8 ≤ b then some (.chr b, rest) else some (.unk b, rest) := by
  unfold decodeFirst
  split
  case h_18 => rfl
  all_goals cases h

theorem unknownFirst_iff (b : Byte) : unknownFirst b = true ↔ namedFirst b = false ∧ ¬ 0x20#8 ≤ b := by
  revert b; decide

theorem printable_iff (b : Byte) : printable b = true ↔ namedFirst b = false ∧ 0x20#8 ≤ b := by
  revert b; decide

theorem decodeSub_of_unknown (t : Byte) (rest : List Byte) (h : unknownSub t = true) :
    decodeSub t rest = some (.xunkSub t, rest) := by
  unfold decodeSub
  split
  case h_7 => rfl
  all_goals cases h

theorem ne_zero_of_glyphSel (c : Byte) (h : glyphSel c = true) : c ≠ 0x00#8 := by
  rintro rfl; cases h

theorem unknownSel_iff (s : Byte) : unknownSel s = true ↔ s ≠ 0x00#8 ∧ glyphSel s = false := by
  revert s; decide

/-- A one-byte command of R95's two ranges. -/
theorem decode_unk (b : Byte) (rest : List Byte) (h : unknownFirst b = true) :
    decode (b :: rest) = .ok (.unk b, rest) := by
  obtain ⟨hnamed, hlow⟩ := (unknownFirst_iff b).1 h
  rw [decode, decodeFirst_of_not_named b rest hnamed, if_neg hlow]

theorem decode_chr (b : Byte) (rest : List Byte) (h : printable b = true) :
    decode (b :: rest) = .ok (.chr b, rest) := by
  obtain ⟨hnamed, hhigh⟩ := (printable_iff b).1 h
  rw [decode, decodeFirst_of_not_named b rest hnamed, if_pos hhigh]

/-- Settles O1: each command's first byte, selector and sub-selector choose its own row, and an i16 field is
put together again from its two bytes. -/
theorem decodeOfEncode : Obligations.DecodeOfEncode := by
  intro i rest h
  cases i with
  | unk b => exact decode_unk b rest h
  | chr c => exact decode_chr c rest h
  | xunkSub t => simp [encode, decode, decodeFirst, decodeExt, decodeSub_of_unknown t rest h]
  | xunkSel s =>
    obtain ⟨h0, hg⟩ := (unknownSel_iff s).1 h
    simp [encode, decode, decodeFirst, decodeExt, h0, hg]
  | defglyph c =>
    have h0 := ne_zero_of_glyphSel c h
    have hg : glyphSel c = true := h
    simp [encode, decode, decodeFirst, decodeExt, h0, hg]
  | audio ch wf vol f d => simp [encode, decode, decodeFirst, decodeExt, decodeSub]
  | plot m x y => simp [encode, decode, decodeFirst]
  | origin x y => simp [encode, decode, decodeFirst]
  | _ => rfl

/-! What decodes is its command's bytes (R95, R96, R105). -/

theorem decodeSub_sound (t : Byte) (rest : List Byte) (i : Instr) (r : List Byte)
    (h : decodeSub t rest = some (i, r)) :
    i.wellFormed = true ∧ 0x17#8 :: 0x00#8 :: t :: rest = encode i ++ r := by
  unfold decodeSub at h
  split at h
  case h_7 => cases h; simp_all [Instr.wellFormed, unknownSub, encode]
  all_goals
    try split at h
    all_goals cases h
    all_goals simp [Instr.wellFormed, encode]

theorem decodeExt_sound (bs : List Byte) (i : Instr) (r : List Byte) (h : decodeExt bs = some (i, r)) :
    i.wellFormed = true ∧ 0x17#8 :: bs = encode i ++ r := by
  unfold decodeExt at h
  split at h
  · cases h
  next s rest =>
  split at h
  next h0 =>
    subst h0
    split at h
    · cases h
    · exact decodeSub_sound _ _ _ _ h
  next h0 =>
    split at h
    next hg =>
      split at h
      · cases h; exact ⟨hg, rfl⟩
      · cases h
    next hg => cases h; exact ⟨(unknownSel_iff s).2 ⟨h0, by simpa using hg⟩, rfl⟩

theorem decodeFirst_sound (b : Byte) (rest : List Byte) (i : Instr) (r : List Byte)
    (h : decodeFirst b rest = some (i, r)) : i.wellFormed = true ∧ b :: rest = encode i ++ r := by
  by_cases hnamed : namedFirst b = false
  · rw [decodeFirst_of_not_named b rest hnamed] at h
    split at h
    next hhigh => cases h; exact ⟨(printable_iff b).2 ⟨hnamed, hhigh⟩, rfl⟩
    next hlow => cases h; exact ⟨(unknownFirst_iff b).2 ⟨hnamed, hlow⟩, rfl⟩
  · unfold decodeFirst at h
    split at h
    case h_12 => exact decodeExt_sound rest i r h
    case h_18 => simp_all [namedFirst]
    all_goals
      try split at h
      all_goals cases h
      all_goals simp [Instr.wellFormed, encode]

/-- A stream decodes to a command just where its first-byte row does. -/
theorem decode_eq_ok_iff (bs : List Byte) (i : Instr) (r : List Byte) :
    decode bs = .ok (i, r) ↔ ∃ b rest, bs = b :: rest ∧ decodeFirst b rest = some (i, r) := by
  cases bs with
  | nil => simp [decode]
  | cons b rest =>
    unfold decode
    cases hf : decodeFirst b rest <;> simp [hf]

/-- Settles O2: row by row of the first-byte map, the extended map and its sub-selectors. -/
theorem encodeOfDecode : Obligations.EncodeOfDecode := by
  intro bs i rest h
  obtain ⟨b, r, rfl, hf⟩ := (decode_eq_ok_iff bs i rest).1 h
  exact decodeFirst_sound b r i rest hf

/-! The length function (R97). -/

/-- The row of a well-formed command in the length tables. -/
theorem encodedLength (i : Instr) : Laws.EncodedLength.Statement i := by
  cases i
  case unk b => exact Laws.EncodedLength.unk b
  case xunkSub t => exact Laws.EncodedLength.xunkSub t
  case xunkSel s => exact Laws.EncodedLength.xunkSel s
  case defglyph => exact Laws.EncodedLength.defglyph _ _ _ _ _ _ _ _ _
  case chr c => exact Laws.EncodedLength.chr c
  all_goals exact fun _ => ⟨rfl, rfl⟩

/-- The head of the stream decides the length: bytes after a whole command do not change it. -/
theorem knownLength_append (bs rest : List Byte) (hne : bs ≠ []) (h : knownLength bs ≤ bs.length) :
    knownLength (bs ++ rest) = knownLength bs := by
  rcases bs with _ | ⟨b, _ | ⟨s, _ | ⟨t, r⟩⟩⟩
  · contradiction
  · by_cases hb : b = 0x17#8
    · simp [knownLength, hb] at h
    · simp [knownLength, hb]
  · by_cases hb : b = 0x17#8 ∧ s = 0x00#8
    · simp [knownLength, hb] at h
    · by_cases hb' : b = 0x17#8
      · have hs : s ≠ 0x00#8 := fun hs => hb ⟨hb', hs⟩
        simp [knownLength, hb', hs]
      · simp [knownLength, hb']
  · rfl

theorem decodeSub_none (t : Byte) (rest : List Byte) (h : decodeSub t rest = none) :
    rest.length + 3 < lengthOfSub t := by
  unfold decodeSub at h
  split at h
  all_goals
    rcases rest with _ | ⟨_, _ | ⟨_, _ | ⟨_, _ | ⟨_, _ | ⟨_, _ | ⟨_, _ | ⟨_, _⟩⟩⟩⟩⟩⟩⟩ <;>
      simp [lengthOfSub] at h ⊢

theorem decodeExt_none (bs : List Byte) (h : decodeExt bs = none) :
    bs.length + 1 < knownLength (0x17#8 :: bs) := by
  unfold decodeExt at h
  split at h
  · simp [knownLength]
  next s rest =>
  by_cases h0 : s = 0x00#8
  · rw [if_pos h0] at h
    cases rest with
    | nil => simp [knownLength, h0]
    | cons t r => simpa [knownLength, h0] using decodeSub_none t r h
  · rw [if_neg h0] at h
    split at h
    next hg =>
      simp only [knownLength, if_neg h0, if_pos hg, if_true]
      rcases rest with _ | ⟨_, _ | ⟨_, _ | ⟨_, _ | ⟨_, _ | ⟨_, _ | ⟨_, _ | ⟨_, _ | ⟨_, _⟩⟩⟩⟩⟩⟩⟩⟩ <;>
        simp at h ⊢
    next => cases h

theorem decodeFirst_none (b : Byte) (rest : List Byte) (h : decodeFirst b rest = none) :
    rest.length + 1 < knownLength (b :: rest) := by
  unfold decodeFirst at h
  split at h
  case h_12 => exact decodeExt_none rest h
  case h_18 => split at h <;> cases h
  all_goals
    rcases rest with _ | ⟨_, _ | ⟨_, _ | ⟨_, _ | ⟨_, _ | ⟨_, _⟩⟩⟩⟩⟩ <;>
      simp [knownLength, lengthOfFirst] at h ⊢

/-- A command that decodes takes the bytes that the length function gives. -/
theorem decode_ok_length (bs : List Byte) (i : Instr) (r : List Byte) (h : decode bs = .ok (i, r)) :
    knownLength bs ≤ bs.length ∧ r = bs.drop (knownLength bs) := by
  obtain ⟨hwf, rfl⟩ := encodeOfDecode bs i r h
  obtain ⟨hlen, hknown⟩ := encodedLength i hwf
  have hne : encode i ≠ [] := by cases i <;> simp [encode]
  rw [knownLength_append _ _ hne (by omega), hknown, ← hlen]
  simp

/-- The length function decides between a command and its lack of bytes (R97). -/
theorem decode_by_length (bs : List Byte) (hne : bs ≠ []) :
    (bs.length < knownLength bs ∧ decode bs = .error (.truncated (knownLength bs - bs.length))) ∨
    (knownLength bs ≤ bs.length ∧ ∃ i, decode bs = .ok (i, bs.drop (knownLength bs))) := by
  obtain ⟨b, rest, rfl⟩ := List.exists_cons_of_ne_nil hne
  cases hf : decodeFirst b rest with
  | none =>
    refine .inl ⟨decodeFirst_none b rest hf, ?_⟩
    simp only [decode, hf]
    rfl
  | some p =>
    have hok : decode (b :: rest) = .ok (p.1, p.2) := by simp [decode, hf]
    obtain ⟨hlen, hdrop⟩ := decode_ok_length _ _ _ hok
    exact .inr ⟨hlen, p.1, hdrop ▸ hok⟩

theorem decode_of_short (bs : List Byte) (hne : bs ≠ []) (h : bs.length < knownLength bs) :
    decode bs = .error (.truncated (knownLength bs - bs.length)) := by
  rcases decode_by_length bs hne with ⟨-, hd⟩ | ⟨hle, -⟩
  · exact hd
  · omega

theorem short_of_decode_error (bs : List Byte) (hne : bs ≠ []) (e : DecodeReject) (h : decode bs = .error e) :
    bs.length < knownLength bs := by
  rcases decode_by_length bs hne with ⟨hlt, -⟩ | ⟨-, i, hd⟩
  · exact hlt
  · rw [hd] at h; cases h

/-- The same, for a head `pre` of the stream and a length written out as `len`. -/
theorem decode_after_head (pre rest : List Byte) (len : Nat) (hne : pre ≠ [])
    (hlen : knownLength (pre ++ rest) = len) (hpre : pre.length ≤ len) :
    if rest.length + pre.length < len then
      decode (pre ++ rest) = .error (.truncated (len - (rest.length + pre.length)))
    else ∃ i, decode (pre ++ rest) = .ok (i, rest.drop (len - pre.length)) := by
  have hlength : (pre ++ rest).length = rest.length + pre.length := by rw [List.length_append, Nat.add_comm]
  have hdrop : (pre ++ rest).drop len = rest.drop (len - pre.length) := by
    rw [List.drop_append, List.drop_of_length_le hpre, List.nil_append]
  rcases decode_by_length (pre ++ rest) (by simp [hne]) with ⟨hlt, hd⟩ | ⟨hle, hd⟩
  · rw [hlen, hlength] at hlt hd
    rwa [if_pos hlt]
  · rw [hlen, hlength] at hle
    rw [hlen, hdrop] at hd
    rwa [if_neg (by omega)]

theorem knownLength_first (b : Byte) (rest : List Byte) (hb : b ≠ 0x17#8) : knownLength (b :: rest) =
    if b = 0x11#8 ∨ b = 0x16#8 then 2
    else if b = 0x12#8 ∨ b = 0x1F#8 then 3
    else if b = 0x1D#8 then 5
    else if b = 0x13#8 ∨ b = 0x19#8 then 6
    else 1 := by
  have h : knownLength (b :: rest) = lengthOfFirst b := if_neg hb
  rw [h]
  clear h
  revert b; decide

theorem glyphSel_iff (s : Byte) : glyphSel s = true ↔ ¬ s.toNat ≤ 0x1F := by
  revert s; decide

theorem knownLength_sel (s : Byte) (rest : List Byte) (h0 : s ≠ 0x00#8) :
    knownLength (0x17#8 :: s :: rest) = if s.toNat ≤ 0x1F then 2 else 10 := by
  by_cases hs : s.toNat ≤ 0x1F <;> simp [knownLength, h0, glyphSel_iff, hs]

theorem lengthOfSub_eq (t : Byte) :
    lengthOfSub t = if t = 0x80#8 ∨ t = 0xC0#8 then 4 else if t = 0x85#8 then 10 else 3 := by
  revert t; decide

/-- Settles O3: each clause is the length function after its head of the stream. -/
theorem lengthFunctionDecides : Obligations.LengthFunctionDecides := by
  refine ⟨fun b rest hb => ?_, ⟨rfl, rfl⟩, fun s rest h0 => ?_, fun t rest => ?_⟩
  · refine decode_after_head [b] rest _ (by simp) (knownLength_first b rest hb) ?_
    rw [List.length_singleton]
    split_ifs <;> omega
  · refine decode_after_head [0x17#8, s] rest _ (by simp) (knownLength_sel s rest h0) ?_
    show 2 ≤ _
    split_ifs <;> omega
  · refine decode_after_head [0x17#8, 0x00#8, t] rest _ (by simp) (lengthOfSub_eq t) ?_
    show 3 ≤ _
    split_ifs <;> omega

/-- Settles O4: the decoder evaluates each word. -/
theorem sampleWordsDecode : Obligations.SampleWordsDecode :=
  ⟨rfl, rfl, rfl, rfl, rfl, rfl, rfl, rfl⟩

/-- Settles O6: the table has a row for each of the 256 mode bytes. -/
theorem plotClassFollowsTable : Obligations.PlotClassFollowsTable := by
  unfold Obligations.PlotClassFollowsTable
  decide

end Sys2Proof
end

section
/-! What each command may write (R39): the named updates, each with the group it writes, put together to
commands. -/

namespace Sys2Proof.Machine

/-- `t` has from `s` all that the access table speaks of but the groups `ws`. -/
def WritesOnly (ws : List FieldGroup) (s t : State) : Prop :=
  (∀ f, f ∉ ws → sameGroup f s t) ∧
  t.dec = s.dec ∧ t.inq = s.inq ∧ t.inConnected = s.inConnected ∧ t.outConnected = s.outConnected ∧
  t.presented = s.presented ∧ t.boot = s.boot

theorem sameGroup_refl (f : FieldGroup) (s : State) : sameGroup f s s := by
  cases f <;> simp [sameGroup]

theorem sameGroup_trans (f : FieldGroup) (s t u : State) (h : sameGroup f s t) (h' : sameGroup f t u) :
    sameGroup f s u := by
  cases f <;> simp_all [sameGroup]

section writes

variable {ws : List FieldGroup}

theorem WritesOnly.refl (s : State) : WritesOnly ws s s :=
  ⟨fun f _ => sameGroup_refl f s, rfl, rfl, rfl, rfl, rfl, rfl⟩

theorem WritesOnly.trans {s t u : State} (h : WritesOnly ws s t) (h' : WritesOnly ws t u) : WritesOnly ws s u := by
  obtain ⟨hf, h1, h2, h3, h4, h5, h6⟩ := h
  obtain ⟨hf', h1', h2', h3', h4', h5', h6'⟩ := h'
  exact ⟨fun f hn => sameGroup_trans f s t u (hf f hn) (hf' f hn), h1'.trans h1, h2'.trans h2, h3'.trans h3,
    h4'.trans h4, h5'.trans h5, h6'.trans h6⟩

/-- An update that leaves the ports alone and writes the one group `g`. -/
theorem WritesOnly.of_group {s t : State} (g : FieldGroup) (hg : g ∈ ws) (hf : ∀ f, f ≠ g → sameGroup f s t)
    (hports : t.dec = s.dec ∧ t.inq = s.inq ∧ t.inConnected = s.inConnected ∧ t.outConnected = s.outConnected ∧
      t.presented = s.presented ∧ t.boot = s.boot) : WritesOnly ws s t :=
  ⟨fun f hn => hf f (by rintro rfl; exact hn hg), hports⟩

theorem WritesOnly.setFb (s : State) (m : Memory) (h : FieldGroup.fb ∈ ws) :
    WritesOnly ws s (s.setFb m) :=
  .of_group .fb h (fun f _ => by cases f <;> simp_all [sameGroup]) ⟨rfl, rfl, rfl, rfl, rfl, rfl⟩

theorem WritesOnly.setCursor (s : State) (x y : Int) (h : FieldGroup.cursor ∈ ws) :
    WritesOnly ws s (s.setCursor x y) :=
  .of_group .cursor h (fun f _ => by cases f <;> simp_all [sameGroup]) ⟨rfl, rfl, rfl, rfl, rfl, rfl⟩

theorem WritesOnly.setFg (s : State) (c : Pixel) (h : FieldGroup.colours ∈ ws) :
    WritesOnly ws s (s.setFg c) :=
  .of_group .colours h (fun f _ => by cases f <;> simp_all [sameGroup]) ⟨rfl, rfl, rfl, rfl, rfl, rfl⟩

theorem WritesOnly.setBg (s : State) (c : Pixel) (h : FieldGroup.colours ∈ ws) :
    WritesOnly ws s (s.setBg c) :=
  .of_group .colours h (fun f _ => by cases f <;> simp_all [sameGroup]) ⟨rfl, rfl, rfl, rfl, rfl, rfl⟩

theorem WritesOnly.setGcol (s : State) (c : Pixel) (h : FieldGroup.colours ∈ ws) :
    WritesOnly ws s (s.setGcol c) :=
  .of_group .colours h (fun f _ => by cases f <;> simp_all [sameGroup]) ⟨rfl, rfl, rfl, rfl, rfl, rfl⟩

theorem WritesOnly.setHist (s : State) (p : History) (h : FieldGroup.hist ∈ ws) :
    WritesOnly ws s (s.setHist p) :=
  .of_group .hist h (fun f _ => by cases f <;> simp_all [sameGroup]) ⟨rfl, rfl, rfl, rfl, rfl, rfl⟩

theorem WritesOnly.setOrigin (s : State) (p : Point) (h : FieldGroup.origin ∈ ws) :
    WritesOnly ws s (s.setOrigin p) :=
  .of_group .origin h (fun f _ => by cases f <;> simp_all [sameGroup]) ⟨rfl, rfl, rfl, rfl, rfl, rfl⟩

theorem WritesOnly.setLogical (s : State) (b : Bool) (h : FieldGroup.logical ∈ ws) :
    WritesOnly ws s (s.setLogical b) :=
  .of_group .logical h (fun f _ => by cases f <;> simp_all [sameGroup]) ⟨rfl, rfl, rfl, rfl, rfl, rfl⟩

theorem WritesOnly.setGlyphs (s : State) (g : Vector Glyph 224) (h : FieldGroup.glyphs ∈ ws) :
    WritesOnly ws s (s.setGlyphs g) :=
  .of_group .glyphs h (fun f _ => by cases f <;> simp_all [sameGroup]) ⟨rfl, rfl, rfl, rfl, rfl, rfl⟩

theorem WritesOnly.setOutq (s : State) (bs : List Byte) (h : FieldGroup.outq ∈ ws) :
    WritesOnly ws s (s.setOutq bs) :=
  .of_group .outq h (fun f _ => by cases f <;> simp_all [sameGroup]) ⟨rfl, rfl, rfl, rfl, rfl, rfl⟩

theorem WritesOnly.setHalted (s : State) (c : Option FatalCause) : WritesOnly ws s (s.setHalted c) :=
  ⟨fun f _ => by cases f <;> simp [sameGroup], rfl, rfl, rfl, rfl, rfl, rfl⟩

theorem WritesOnly.setDiagLog (s : State) (es : List DiagEvent) : WritesOnly ws s (s.setDiagLog es) :=
  ⟨fun f _ => by cases f <;> simp [sameGroup], rfl, rfl, rfl, rfl, rfl, rfl⟩

theorem WritesOnly.setDraws (s : State) (as : List Bool) (n : Nat) : WritesOnly ws s (s.setDraws as n) :=
  ⟨fun f _ => by cases f <;> simp [sameGroup], rfl, rfl, rfl, rfl, rfl, rfl⟩

theorem WritesOnly.sendPacket (s : State) (code : Byte) (payload : List Byte) (h : FieldGroup.outq ∈ ws) :
    WritesOnly ws s (s.sendPacket code payload) := by
  rw [State.sendPacket_eq]
  split
  · exact .setOutq s _ h
  · exact .setHalted s _

theorem WritesOnly.afterAlloc (s : State) : WritesOnly ws s s.afterAlloc := by
  rw [State.afterAlloc_self]
  exact .setDraws s _ _

/-- The reset of a mode switch writes all the groups of R39's row for MODE but `outq`. -/
theorem WritesOnly.modeReset (s : State) (m : Byte) : WritesOnly (mayWrite (.mode m)) s (s.modeReset m) :=
  ⟨fun f hf => by cases f <;> simp_all [mayWrite, sameGroup], rfl, rfl, rfl, rfl, rfl, rfl⟩

theorem WritesOnly.scrollCheck (s : State) (hfb : FieldGroup.fb ∈ ws) (hcur : FieldGroup.cursor ∈ ws) :
    WritesOnly ws s s.scrollCheck := by
  obtain ⟨m, y, h⟩ := s.scrollCheck_eq
  rw [h]
  exact (setFb s m hfb).trans (setCursor _ _ _ hcur)

theorem WritesOnly.cursorRight (s : State) (h : FieldGroup.cursor ∈ ws) : WritesOnly ws s s.cursorRight := by
  unfold State.cursorRight
  split
  · exact .setCursor s _ _ h
  · exact .setCursor s _ _ h

theorem WritesOnly.plotDraw (s : State) (m : Byte) (h : FieldGroup.fb ∈ ws) : WritesOnly ws s (s.plotDraw m) := by
  unfold State.plotDraw
  cases plotClass m
  case move => exact .refl s
  case unsupported => exact .setDiagLog s _
  all_goals exact .setFb s _ h

end writes

/-! Where MODE ends (R150–R152). -/

theorem exec_mode_of_unknown (s : State) (m : Byte) (h : modeTable m = none) :
    exec (.mode m) s = .next (s.raiseDiag (.modeUnknown m)) := by
  simp [exec, execMode, h]

theorem exec_mode_of_not_allocated (s : State) (m : Byte) (h : (modeTable m).isSome = true)
    (ha : s.allocOk m = false) : exec (.mode m) s = .next (s.afterAlloc.raiseFatal (.alloc m)) := by
  rw [Option.isSome_iff_ne_none] at h
  simp [exec, execMode, h, ha]

theorem exec_mode_of_allocated (s : State) (m : Byte) (h : (modeTable m).isSome = true)
    (ha : s.allocOk m = true) :
    exec (.mode m) s = .next ((s.afterAlloc.modeReset m).sendPacket 0x06#8 (modeInfo m)) := by
  rw [Option.isSome_iff_ne_none] at h
  simp [exec, execMode, h, ha]

/-- Everything MODE can do. -/
theorem exec_mode_cases (s : State) (m : Byte) :
    (modeTable m = none ∧ exec (.mode m) s = .next (s.raiseDiag (.modeUnknown m))) ∨
    ((modeTable m).isSome = true ∧ s.allocOk m = false ∧
      exec (.mode m) s = .next (s.afterAlloc.raiseFatal (.alloc m))) ∨
    ((modeTable m).isSome = true ∧ s.allocOk m = true ∧
      exec (.mode m) s = .next ((s.afterAlloc.modeReset m).sendPacket 0x06#8 (modeInfo m))) := by
  cases h : modeTable m with
  | none => exact .inl ⟨rfl, exec_mode_of_unknown s m h⟩
  | some e =>
    have hs : (modeTable m).isSome = true := by rw [h]; rfl
    cases ha : s.allocOk m with
    | false => exact .inr (.inl ⟨rfl, rfl, exec_mode_of_not_allocated s m hs ha⟩)
    | true => exact .inr (.inr ⟨rfl, rfl, exec_mode_of_allocated s m hs ha⟩)

theorem exec_mode_writesOnly (s t : State) (m : Byte) (h : exec (.mode m) s = .next t) :
    WritesOnly (mayWrite (.mode m)) s t := by
  rcases exec_mode_cases s m with ⟨-, he⟩ | ⟨-, -, he⟩ | ⟨-, -, he⟩ <;> rw [he] at h <;> cases h
  · exact .setDiagLog s _
  · exact (WritesOnly.afterAlloc s).trans (.setHalted _ _)
  · exact ((WritesOnly.afterAlloc s).trans (.modeReset _ m)).trans (.sendPacket _ _ _ (by simp [mayWrite]))

/-- Settles O58: each command is put together from updates of the groups in its row of the access table. -/
theorem commandsWriteOnlyTheirFields : Obligations.CommandsWriteOnlyTheirFields := by
  intro i s t h
  show WritesOnly (mayWrite i) s t
  cases i
  case mode m => exact exec_mode_writesOnly s t m h
  all_goals cases h
  case unk | xunkSub | xunkSel => exact .setDiagLog s _
  case defcol | keynop | audio => exact .refl s
  case left | up | cr | home => exact .setCursor s _ _ (by simp [mayWrite])
  case right => exact .cursorRight s (by simp [mayWrite])
  case down =>
    exact (WritesOnly.setCursor s _ _ (by simp [mayWrite])).trans
      (.scrollCheck _ (by simp [mayWrite]) (by simp [mayWrite]))
  case cls => exact (WritesOnly.setFb s _ (by simp [mayWrite])).trans (.setCursor _ _ _ (by simp [mayWrite]))
  case clg => exact .setFb s _ (by simp [mayWrite])
  case colour c =>
    split
    · exact .setFg s _ (by simp [mayWrite])
    · exact .setBg s _ (by simp [mayWrite])
  case gcol => exact .setGcol s _ (by simp [mayWrite])
  case gpoll | qcursor | qmode => exact .sendPacket s _ _ (by simp [mayWrite])
  case logical => exact .setLogical s _ (by simp [mayWrite])
  case defglyph => exact .setGlyphs s _ (by simp [mayWrite])
  case plot =>
    exact (WritesOnly.setHist s _ (by simp [mayWrite])).trans (.plotDraw _ _ (by simp [mayWrite]))
  case origin => exact .setOrigin s _ (by simp [mayWrite])
  case tab =>
    split
    · exact .setCursor s _ _ (by simp [mayWrite])
    · exact .refl s
  case chr =>
    exact ((WritesOnly.setFb s _ (by simp [mayWrite])).trans (.cursorRight _ (by simp [mayWrite]))).trans
      (.scrollCheck _ (by simp [mayWrite]) (by simp [mayWrite]))
  case bs => exact (WritesOnly.setCursor s _ _ (by simp [mayWrite])).trans (.setFb _ _ (by simp [mayWrite]))

end Sys2Proof.Machine
end

section
/-! What every step keeps (R23–R29, R41, R285): one analysis of a step, and the five invariants from it. -/

namespace Sys2Proof.Machine

/-! One step, as seen from the fields of the block that its environment does not own. -/

/-- `t` is `s` but for the channels, the stop, the boot message and the model's own fields. -/
def Outside (s t : State) : Prop :=
  ∃ halted inq ic outq oc boot env clock as draws, t = { s with
    halted := halted, inq := inq, inConnected := ic, outq := outq, outConnected := oc, boot := boot
    env := env, clock := clock, allocAnswers := as, draws := draws }

theorem Outside.intro (s : State) (halted : Option FatalCause) (inq : List Byte) (ic : Bool) (outq : List Byte)
    (oc : Bool) (boot : List Byte) (env : List EnvMove) (clock : Int) (as : List Bool) (draws : Nat) :
    Outside s { s with
      halted := halted, inq := inq, inConnected := ic, outq := outq, outConnected := oc, boot := boot
      env := env, clock := clock, allocAnswers := as, draws := draws } :=
  ⟨_, _, _, _, _, _, _, _, _, _, rfl⟩

/-- Everything a step that ends in a next state can do: it runs a command, ticks, starts anew, or leaves the
block's own fields alone. -/
theorem step_next_cases (s t : State) (h : step s = .next t) :
    (∃ i u, Outside s u ∧ exec i u = .next t) ∨
    (∃ now u, Outside s u ∧ tick now u = .next t) ∨
    (∃ t0 q a b u, s.env.head? = some (.start t0 q a b) ∧ Outside s u ∧ t = u.start t0 q a b) ∨
    Outside s t := by
  rcases step_cases s with ⟨-, -, hs⟩ | ⟨-, -, hs⟩ | ⟨e, es, he, hs⟩
  · have hboot : ∃ es, step s = bootStep (s.setEnv es) := by
      rcases hs with hs | ⟨es, -, hs⟩
      · exact ⟨s.env, hs⟩
      · exact ⟨es, hs⟩
    obtain ⟨es, hs⟩ := hboot
    rcases bootStep_cases (s.setEnv es) with ⟨i, rest, -, hb⟩ | ⟨-, hb⟩
    · exact .inl ⟨i, (s.setEnv es).setBoot rest, .intro .., by rw [← hb, ← hs, h]⟩
    · rw [hs, hb] at h; cases h
  · exact .inr (.inl ⟨_, _, .intro .., by rw [← h, hs]; rfl⟩)
  · rw [hs] at h
    cases e
    case tick now => exact .inr (.inl ⟨now, _, .intro .., h⟩)
    case start t0 q a b =>
      cases h
      exact .inr (.inr (.inl ⟨t0, q, a, b, _, by rw [he]; rfl, .intro .., rfl⟩))
    case injectKey code down =>
      obtain ⟨bs, c, hi⟩ := (s.setEnv es).injectKey_eq code down
      cases h
      rw [hi]
      exact .inr (.inr (.inr (.intro ..)))
    case peerSend bs =>
      cases h
      split
      · exact .inr (.inr (.inr (.intro ..)))
      · exact .inr (.inr (.inr (.intro ..)))
    all_goals
      cases h
      exact .inr (.inr (.inr (.intro ..)))

/-- Everything a tick can do: nothing, the pacer's half after nothing or after a command, or a wait for bytes. -/
theorem tick_next_cases (now : Int) (s t : State) (h : tick now s = .next t) :
    t = s.setClock now ∨
    t = (s.setClock now).pacerHalf now ∨
    ((∃ n, decode (s.dec.got ++ s.inq) = .error (.truncated n)) ∧
      t = (s.setClock now).block (s.dec.got ++ s.inq)) ∨
    (∃ i rest u, exec i ((s.setClock now).setInq rest .idle) = .next u ∧ t = u.pacerHalf now) := by
  rcases tick_cases now s with ⟨c, -, ht⟩ | ⟨-, -, ht⟩ | ⟨-, hd, ht⟩ | ⟨-, i, rest, u, -, hu, ht⟩ <;>
    rw [ht] at h <;> cases h
  · exact .inl rfl
  · exact .inr (.inl rfl)
  · exact .inr (.inr (.inl ⟨hd, rfl⟩))
  · exact .inr (.inr (.inr ⟨i, rest, u, hu, rfl⟩))

/-- Everything `start` can do to the block's own fields (R330). -/
theorem State.start_cases (s : State) (t0 : Int) (q : List Byte) (a b : Bool) :
    (∃ u on c bt, Outside (s.startClean t0 q a b) u ∧ s.start t0 q a b = { u.modeReset defaultMode with
      lastPresentUs := t0, lastBlinkUs := t0, blinkOn := on, outq := c, boot := bt }) ∨
    Outside (s.startClean t0 q a b) (s.start t0 q a b) := by
  unfold State.start
  obtain ⟨as, n, ha⟩ := (s.startClean t0 q a b).afterAlloc_eq
  simp only [ha, bootSendsModeReply]
  split
  · exact .inl ⟨_, _, _, _, .intro .., rfl⟩
  · exact .inr (.intro ..)

/-! Invariants of the screen, the mode, the cursor and the origin. -/

/-- The fields that the invariants of R24, R25, R29 and R41 speak of are the same. -/
def SameScreen (s t : State) : Prop :=
  t.mode = s.mode ∧ t.fb = s.fb ∧ t.curX = s.curX ∧ t.curY = s.curY ∧ t.origin = s.origin

theorem Outside.sameScreen {s t : State} (h : Outside s t) : SameScreen s t := by
  obtain ⟨_, _, _, _, _, _, _, _, _, _, rfl⟩ := h
  exact ⟨rfl, rfl, rfl, rfl, rfl⟩

theorem pacerHalf_sameScreen (s : State) (now : Int) : SameScreen s (s.pacerHalf now) := by
  rcases s.pacerHalf_eq now with h | ⟨_, _, _, _, h⟩ <;> rw [h] <;> exact ⟨rfl, rfl, rfl, rfl, rfl⟩

theorem block_sameScreen (s : State) (got : List Byte) : SameScreen s (s.block got) := by
  obtain ⟨c, h⟩ := s.block_eq got
  rw [h]
  exact ⟨rfl, rfl, rfl, rfl, rfl⟩

/-- What holds of a state, rests on those fields alone, is kept by every command and holds after the reset of
`start`, is kept by every step. -/
theorem step_keeps_of_screen (P : State → Prop) (hscreen : ∀ s t, SameScreen s t → P s → P t)
    (hexec : ∀ i s t, exec i s = .next t → P s → P t) (hreset : ∀ s, P s → P (s.modeReset defaultMode)) :
    ∀ s t, P s → step s = .next t → P t := by
  intro s t hs h
  rcases step_next_cases s t h with ⟨i, u, hu, he⟩ | ⟨now, u, hu, ht⟩ | ⟨t0, q, a, b, u, -, hu, rfl⟩ | ho
  · exact hexec i u t he (hscreen s u hu.sameScreen hs)
  · have hPu := hscreen s u hu.sameScreen hs
    have hclock : P (u.setClock now) := hscreen u _ ⟨rfl, rfl, rfl, rfl, rfl⟩ hPu
    rcases tick_next_cases now u t ht with rfl | rfl | ⟨-, rfl⟩ | ⟨i, rest, v, he, rfl⟩
    · exact hclock
    · exact hscreen (u.setClock now) _ (pacerHalf_sameScreen _ now) hclock
    · exact hscreen (u.setClock now) _ (block_sameScreen _ _) hclock
    · have hPv : P v := hexec i _ v he (hscreen u _ ⟨rfl, rfl, rfl, rfl, rfl⟩ hPu)
      exact hscreen v _ (pacerHalf_sameScreen v now) hPv
  · have hclean : P (u.startClean t0 q a b) :=
      hscreen u _ ⟨rfl, rfl, rfl, rfl, rfl⟩ (hscreen s u hu.sameScreen hs)
    rcases u.start_cases t0 q a b with ⟨v, on, c, bt, hv, he⟩ | ho
    · rw [he]
      exact hscreen (v.modeReset defaultMode) _ ⟨rfl, rfl, rfl, rfl, rfl⟩
        (hreset v (hscreen _ v hv.sameScreen hclean))
    · exact hscreen _ _ ho.sameScreen hclean
  · exact hscreen s t ho.sameScreen hs

/-- MODE leaves the screen, or makes the one of a known mode's reset. -/
theorem exec_mode_screen (s t : State) (m : Byte) (h : exec (.mode m) s = .next t) :
    SameScreen s t ∨ ((modeTable m).isSome = true ∧ SameScreen (s.modeReset m) t) := by
  obtain ⟨as, n, ha⟩ := s.afterAlloc_eq
  rcases exec_mode_cases s m with ⟨-, he⟩ | ⟨-, -, he⟩ | ⟨hm, -, he⟩ <;> rw [he] at h <;> cases h
  · exact .inl ⟨rfl, rfl, rfl, rfl, rfl⟩
  · rw [ha]
    exact .inl ⟨rfl, rfl, rfl, rfl, rfl⟩
  · rw [ha, State.sendPacket_eq]
    refine .inr ⟨hm, ?_⟩
    split <;> exact ⟨rfl, rfl, rfl, rfl, rfl⟩

/-! The framebuffer's canonical form. -/

theorem State.FbCanonical.of_fields {s t : State} (hmode : t.mode = s.mode) (hfb : t.fb = s.fb) (h : s.FbCanonical) :
    t.FbCanonical := by
  simpa only [State.FbCanonical, State.fbSize, State.width, State.height, hmode, hfb] using h

theorem State.clearFb_canonical (s : State) : s.clearFb.FbCanonical := Memory.wf_fill _ _

theorem State.cursorRight_canonical (s : State) (h : s.FbCanonical) : s.cursorRight.FbCanonical := by
  unfold State.cursorRight
  split <;> exact h

theorem State.scrollCheck_canonical (s : State) (h : s.FbCanonical) : s.scrollCheck.FbCanonical := by
  have hsize : s.scrollCheck.fbSize = s.fbSize := by
    obtain ⟨m, y, he⟩ := s.scrollCheck_eq
    rw [he]
    rfl
  rw [State.FbCanonical, hsize]
  exact s.scrollCheck_wf h

theorem State.plotDraw_canonical (s : State) (m : Byte) (h : s.FbCanonical) : (s.plotDraw m).FbCanonical := by
  unfold State.plotDraw
  cases plotClass m
  case move | unsupported => exact h
  all_goals exact s.draw_wf _ _ h

theorem exec_keeps_canonical (i : Instr) (s t : State) (h : exec i s = .next t) (hs : s.FbCanonical) :
    t.FbCanonical := by
  cases i
  case mode m =>
    rcases exec_mode_screen s t m h with ⟨hm, hfb, -⟩ | ⟨-, hm, hfb, -⟩
    · exact .of_fields hm hfb hs
    · exact .of_fields hm hfb (Memory.wf_fill _ _)
  case chr => cases h; exact State.scrollCheck_canonical _ (State.cursorRight_canonical _ (s.paint_wf _ hs))
  case down => cases h; exact State.scrollCheck_canonical _ hs
  case cls | clg => cases h; exact s.clearFb_canonical
  case bs => cases h; exact s.cursorLeft.paint_wf _ hs
  case plot => cases h; exact State.plotDraw_canonical _ _ hs
  all_goals
    obtain ⟨hgroups, -⟩ := commandsWriteOnlyTheirFields _ s t h
    exact .of_fields (hgroups .mode (by simp [mayWrite])) (hgroups .fb (by simp [mayWrite])) hs

/-- Settles O17: every operation on the framebuffer space keeps its canonical form. -/
theorem stepKeepsFramebufferCanonical : Obligations.StepKeepsFramebufferCanonical :=
  step_keeps_of_screen State.FbCanonical (fun _ _ hst hs => .of_fields hst.1 hst.2.1 hs)
    exec_keeps_canonical (fun _ _ => Memory.wf_fill _ _)

/-! The cursor. -/

theorem State.CursorSound.of_fields {s t : State} (hmode : t.mode = s.mode) (hx : t.curX = s.curX)
    (hy : t.curY = s.curY) (h : s.CursorSound) : t.CursorSound := by
  simpa only [State.CursorSound, State.width, hmode, hx, hy] using h

theorem State.setCursor_sound (s : State) (x y : Int) (hx : 0 ≤ x ∧ x < s.width) (hy : 0 ≤ y) :
    (s.setCursor x y).CursorSound := ⟨hx.1, hx.2, hy⟩

/-- Column 0 is a column of every mode. -/
theorem State.column_zero (s : State) : (0 : Int) ≤ 0 ∧ (0 : Int) < s.width := by
  have := s.width_pos
  omega

theorem State.cursorRight_sound (s : State) (h : s.CursorSound) : s.cursorRight.CursorSound := by
  obtain ⟨hx0, hxw, hy⟩ := h
  have hfontW : ((fontW : Nat) : Int) = 8 := rfl
  have hfontH : ((fontH : Nat) : Int) = 8 := rfl
  unfold State.cursorRight
  split
  · exact s.setCursor_sound _ _ s.column_zero (by omega)
  · exact s.setCursor_sound _ _ (by omega) hy

theorem State.scrollCheck_sound (s : State) (h : s.CursorSound) : s.scrollCheck.CursorSound := by
  obtain ⟨hx0, hxw, hy⟩ := h
  have hheight := s.height_ge
  rcases s.scrollCheck_cases with ⟨-, he⟩ | ⟨-, -, he⟩ | ⟨-, -, he⟩ <;> rw [he]
  · exact ⟨hx0, hxw, hy⟩
  · exact State.setCursor_sound _ _ _ ⟨hx0, hxw⟩ (by omega)
  · exact State.setCursor_sound _ _ _ ⟨hx0, hxw⟩ (by omega)

theorem State.cursorLeft_sound (s : State) (h : s.CursorSound) : s.cursorLeft.CursorSound := by
  obtain ⟨hx0, hxw, hy⟩ := h
  have hfontW : ((fontW : Nat) : Int) = 8 := rfl
  exact s.setCursor_sound _ _ (by omega) hy

/-- A cell of the grid begins at a column of the mode. -/
theorem State.tab_column (s : State) (col : Byte) (h : col.toNat < s.cols) :
    (0 : Int) ≤ (col.toNat * fontW : Nat) ∧ ((col.toNat * fontW : Nat) : Int) < s.width := by
  have hcols : s.cols * 8 ≤ s.width := Nat.div_mul_le_self s.width 8
  simp only [fontW]
  omega

theorem exec_keeps_cursorSound (i : Instr) (s t : State) (h : exec i s = .next t) (hs : s.CursorSound) :
    t.CursorSound := by
  obtain ⟨hx0, hxw, hy⟩ := id hs
  have hfontH : ((fontH : Nat) : Int) = 8 := rfl
  cases i
  case mode m =>
    rcases exec_mode_screen s t m h with ⟨hm, -, hx, hy, -⟩ | ⟨-, hm, -, hx, hy, -⟩
    · exact .of_fields hm hx hy hs
    · exact .of_fields hm hx hy ⟨le_rfl, (s.modeReset m).column_zero.2, le_rfl⟩
  case chr => cases h; exact State.scrollCheck_sound _ (State.cursorRight_sound _ hs)
  case down => cases h; exact State.scrollCheck_sound _ (s.setCursor_sound _ _ ⟨hx0, hxw⟩ (by omega))
  case right => cases h; exact s.cursorRight_sound hs
  case left => cases h; exact s.cursorLeft_sound hs
  case bs => cases h; exact s.cursorLeft_sound hs
  case up => cases h; exact s.setCursor_sound _ _ ⟨hx0, hxw⟩ (by omega)
  case cr => cases h; exact s.setCursor_sound _ _ s.column_zero hy
  case home | cls => cases h; exact State.setCursor_sound _ _ _ s.column_zero le_rfl
  case tab col row =>
    cases h
    split
    next hgrid => exact s.setCursor_sound _ _ (s.tab_column col hgrid.1) (by omega)
    next => exact hs
  all_goals
    obtain ⟨hgroups, -⟩ := commandsWriteOnlyTheirFields _ s t h
    obtain ⟨hx, hy⟩ := hgroups .cursor (by simp [mayWrite])
    exact .of_fields (hgroups .mode (by simp [mayWrite])) hx hy hs

/-- Settles O18: every mode has a column 0 and a whole text row, and every cursor move stays clear of W and of
negative values. -/
theorem stepKeepsCursorSound : Obligations.StepKeepsCursorSound :=
  step_keeps_of_screen State.CursorSound (fun _ _ ⟨hm, _, hx, hy, _⟩ hs => .of_fields hm hx hy hs)
    exec_keeps_cursorSound (fun s _ => ⟨le_rfl, (s.modeReset defaultMode).column_zero.2, le_rfl⟩)

/-! The mode and the origin. -/

theorem modeAndOriginSound_of_fields {s t : State} (hmode : t.mode = s.mode) (horigin : t.origin = s.origin)
    (h : s.ModeKnown ∧ s.OriginSound) : t.ModeKnown ∧ t.OriginSound := by
  simpa only [State.ModeKnown, State.OriginSound, hmode, horigin] using h

theorem State.modeReset_sound (s : State) (m : Byte) (h : (modeTable m).isSome = true) :
    (s.modeReset m).ModeKnown ∧ (s.modeReset m).OriginSound := ⟨h, by simp [State.OriginSound]⟩

theorem exec_keeps_modeAndOrigin (i : Instr) (s t : State) (h : exec i s = .next t)
    (hs : s.ModeKnown ∧ s.OriginSound) : t.ModeKnown ∧ t.OriginSound := by
  cases i
  case mode m =>
    rcases exec_mode_screen s t m h with ⟨hm, -, -, -, ho⟩ | ⟨hk, hm, -, -, -, ho⟩
    · exact modeAndOriginSound_of_fields hm ho hs
    · exact modeAndOriginSound_of_fields hm ho (s.modeReset_sound m hk)
  case origin x y =>
    cases h
    exact ⟨hs.1, (i16_bounds x).1, (i16_bounds x).2, i16_bounds y⟩
  all_goals
    obtain ⟨hgroups, -⟩ := commandsWriteOnlyTheirFields _ s t h
    exact modeAndOriginSound_of_fields (hgroups .mode (by simp [mayWrite]))
      (hgroups .origin (by simp [mayWrite])) hs

/-- Settles O19: MODE takes keys of the table only, and ORIGIN's operands are i16 values. -/
theorem stepKeepsModeAndOriginSound : Obligations.StepKeepsModeAndOriginSound :=
  step_keeps_of_screen (fun s => s.ModeKnown ∧ s.OriginSound)
    (fun _ _ ⟨hm, _, _, _, ho⟩ hs => modeAndOriginSound_of_fields hm ho hs)
    exec_keeps_modeAndOrigin (fun s _ => s.modeReset_sound defaultMode defaultMode_known)

/-! The decoder phase. -/

theorem State.DecoderSound.of_dec {s t : State} (hdec : t.dec = s.dec) (h : s.DecoderSound) : t.DecoderSound := by
  simpa only [State.DecoderSound, hdec] using h

theorem State.DecoderSound.of_idle {s : State} (hdec : s.dec = .idle) : s.DecoderSound := by
  simp only [State.DecoderSound, hdec]

/-- The only truncated streams are those short of what the length function gives. -/
theorem State.block_decoderSound (s : State) (got : List Byte) (n : Nat)
    (h : decode got = .error (.truncated n)) : (s.block got).DecoderSound := by
  have hne : got ≠ [] := by rintro rfl; cases h
  have hlt := short_of_decode_error got hne _ h
  obtain ⟨c, hb⟩ := s.block_eq got
  rw [hb]
  show got ≠ [] ∧ 0 < needed got ∧ got.length + needed got = knownLength got
  unfold needed
  exact ⟨hne, by omega, by omega⟩

theorem State.pacerHalf_dec (s : State) (now : Int) : (s.pacerHalf now).dec = s.dec := by
  rcases s.pacerHalf_eq now with h | ⟨_, _, _, _, h⟩
  · rw [h]
  · rw [h]
    rfl

theorem tick_keeps_decoderSound (now : Int) (s t : State) (h : tick now s = .next t) (hs : s.DecoderSound) :
    t.DecoderSound := by
  rcases tick_next_cases now s t h with rfl | rfl | ⟨⟨n, hn⟩, rfl⟩ | ⟨i, rest, u, he, rfl⟩
  · exact hs
  · exact .of_dec ((s.setClock now).pacerHalf_dec now) hs
  · exact (s.setClock now).block_decoderSound _ n hn
  · obtain ⟨-, hdec, -⟩ := commandsWriteOnlyTheirFields i _ u he
    exact .of_idle ((u.pacerHalf_dec now).trans hdec)

theorem State.start_dec (s : State) (t0 : Int) (q : List Byte) (a b : Bool) : (s.start t0 q a b).dec = .idle := by
  rcases s.start_cases t0 q a b with ⟨u, _, _, _, hu, he⟩ | ⟨_, _, _, _, _, _, _, _, _, _, he⟩
  · obtain ⟨_, _, _, _, _, _, _, _, _, _, rfl⟩ := hu
    rw [he]
    rfl
  · rw [he]
    rfl

/-- Settles O20: only a tick sets `dec`, to Idle or to what `block` says of a truncated command. -/
theorem stepKeepsDecoderSound : Obligations.StepKeepsDecoderSound := by
  intro s t hs h
  rcases step_next_cases s t h with ⟨i, u, hu, he⟩ | ⟨now, u, hu, ht⟩ | ⟨t0, q, a, b, u, -, -, rfl⟩ | ho
  · obtain ⟨_, _, _, _, _, _, _, _, _, _, rfl⟩ := hu
    obtain ⟨-, hdec, -⟩ := commandsWriteOnlyTheirFields i _ t he
    exact .of_dec hdec hs
  · obtain ⟨_, _, _, _, _, _, _, _, _, _, rfl⟩ := hu
    exact tick_keeps_decoderSound now _ t ht hs
  · exact .of_idle (u.start_dec t0 q a b)
  · obtain ⟨_, _, _, _, _, _, _, _, _, _, rfl⟩ := ho
    exact hs

/-! The presentation port. -/

/-- The pacer check presents one frame or none (R283). -/
theorem State.pacerHalf_presented (s : State) (now : Int) :
    (s.pacerHalf now).presented = s.presented ∨ ∃ f, (s.pacerHalf now).presented = s.presented ++ [f] := by
  have hblink : (s.blinkUpdate now).presented = s.presented := by
    unfold State.blinkUpdate
    split <;> rfl
  unfold State.pacerHalf State.pacerCheck
  split
  · split
    · exact .inr ⟨(s.blinkUpdate now).frame, by simp [State.present, hblink]⟩
    · exact .inl rfl
  · exact .inl rfl

theorem tick_presented (now : Int) (s t : State) (h : tick now s = .next t) :
    t.presented = s.presented ∨ ∃ f, t.presented = s.presented ++ [f] := by
  rcases tick_next_cases now s t h with rfl | rfl | ⟨-, rfl⟩ | ⟨i, rest, u, he, rfl⟩
  · exact .inl rfl
  · exact (s.setClock now).pacerHalf_presented now
  · obtain ⟨c, hb⟩ := (s.setClock now).block_eq (s.dec.got ++ s.inq)
    rw [hb]
    exact .inl rfl
  · obtain ⟨-, -, -, -, -, hp, -⟩ := commandsWriteOnlyTheirFields i _ u he
    have hu : u.presented = s.presented := hp
    rw [← hu]
    exact u.pacerHalf_presented now

theorem State.start_presented (s : State) (t0 : Int) (q : List Byte) (a b : Bool) :
    (s.start t0 q a b).presented = [] := by
  rcases s.start_cases t0 q a b with ⟨u, _, _, _, hu, he⟩ | ⟨_, _, _, _, _, _, _, _, _, _, he⟩
  · obtain ⟨_, _, _, _, _, _, _, _, _, _, rfl⟩ := hu
    rw [he]
    rfl
  · rw [he]
    rfl

/-- Settles O22: commands leave the port alone, a tick presents at most once, `start` empties it. -/
theorem stepPresentsAtMostOnce : Obligations.StepPresentsAtMostOnce := by
  intro s t h
  rcases step_next_cases s t h with ⟨i, u, hu, he⟩ | ⟨now, u, hu, ht⟩ | ⟨t0, q, a, b, u, hstart, -, rfl⟩ | ho
  · obtain ⟨_, _, _, _, _, _, _, _, _, _, rfl⟩ := hu
    obtain ⟨-, -, -, -, -, hp, -⟩ := commandsWriteOnlyTheirFields i _ t he
    exact .inl hp
  · obtain ⟨_, _, _, _, _, _, _, _, _, _, rfl⟩ := hu
    rcases tick_presented now _ t ht with hp | hp
    · exact .inl hp
    · exact .inr (.inl hp)
  · exact .inr (.inr ⟨t0, q, a, b, hstart, u.start_presented t0 q a b⟩)
  · obtain ⟨_, _, _, _, _, _, _, _, _, _, rfl⟩ := ho
    exact .inl rfl

end Sys2Proof.Machine
end

section
/-! The tick and the step, the boot message and the environment's moves (R65, R130–R132, R282, R306–R311,
R330–R332). -/

namespace Sys2Proof.Machine

/-! Which part of a step runs. -/

theorem step_of_env_nil (s : State) (hboot : s.halted = none → s.boot = []) (he : s.env = []) :
    step s = freeTick s := by
  rcases step_cases s with ⟨hh, hb, -⟩ | ⟨-, -, hs⟩ | ⟨e, es, he', -⟩
  · exact absurd (hboot hh) hb
  · exact hs
  · rw [he] at he'; cases he'

theorem step_of_env_cons (s : State) (e : EnvMove) (es : List EnvMove) (hboot : s.halted = none → s.boot = [])
    (he : s.env = e :: es) : step s = envMove e (s.setEnv es) := by
  rcases step_cases s with ⟨hh, hb, -⟩ | ⟨-, he', -⟩ | ⟨e', es', he', hs⟩
  · exact absurd (hboot hh) hb
  · rw [he] at he'; cases he'
  · rw [he] at he'; cases he'; exact hs

theorem step_of_boot (s : State) (hh : s.halted = none) (hb : s.boot ≠ []) : step s = bootAdvance s := by
  obtain ⟨b, bs, hb⟩ := List.exists_cons_of_ne_nil hb
  simp only [step, advance, hh, hb]

/-- The CPU peer's moves: its acts on the channels (R311). -/
def EnvMove.ofPeer : EnvMove → Bool
  | .peerSend _ | .peerTake _ | .closeIn | .closeOut => true
  | _ => false

/-- The peer acts in every state, with a boot message pending too. -/
theorem step_of_peer (s : State) (e : EnvMove) (es : List EnvMove) (he : s.env = e :: es) (hp : e.ofPeer = true) :
    step s = envMove e (s.setEnv es) := by
  by_cases hboot : s.halted = none → s.boot = []
  · exact step_of_env_cons s e es hboot he
  · rw [Classical.not_imp] at hboot
    rw [step_of_boot s hboot.1 hboot.2]
    unfold bootAdvance
    rw [he]
    cases e
    case peerSend | peerTake | closeIn | closeOut => rfl
    all_goals cases hp

/-! What a tick does in each case (R282). -/

theorem tick_of_halted (now : Int) (s : State) (c : FatalCause) (h : s.halted = some c) :
    tick now s = .next (s.setClock now) := by
  simp [tick, h]

theorem tick_of_ok (now : Int) (s : State) (i : Instr) (rest : List Byte) (h : s.halted = none)
    (hd : decode (s.dec.got ++ s.inq) = .ok (i, rest)) :
    ∃ t, exec i ((s.setClock now).setInq rest .idle) = .next t ∧ tick now s = .next (t.pacerHalf now) := by
  rcases tick_cases now s with ⟨c, hc, -⟩ | ⟨-, he, -⟩ | ⟨-, ⟨n, hn⟩, -⟩ | ⟨-, i', rest', t, hd', hx, ht⟩
  · rw [h] at hc; cases hc
  · rw [he] at hd; cases hd
  · rw [hn] at hd; cases hd
  · rw [hd] at hd'; cases hd'; exact ⟨t, hx, ht⟩

/-- A truncated command waits with `halted` as it was, or stops where no byte can come (R65, R131). -/
theorem State.block_of_running (s : State) (got : List Byte) (h : s.halted = none) : s.block got = { s with
    inq := []
    dec := .blocked got (knownLength got - got.length)
    halted := if s.inConnected then none else some .inDisconnect } := by
  unfold State.block needed
  by_cases hc : s.inConnected = true
  · simp [State.setInq, hc, h]
  · simp [State.setInq, State.raiseFatal, State.setHalted, hc]

theorem tick_of_short (now : Int) (s : State) (h : s.halted = none) (hne : s.dec.got ++ s.inq ≠ [])
    (hlt : (s.dec.got ++ s.inq).length < knownLength (s.dec.got ++ s.inq)) :
    tick now s = .next { s with
      clock := now
      inq := []
      dec := .blocked (s.dec.got ++ s.inq) (knownLength (s.dec.got ++ s.inq) - (s.dec.got ++ s.inq).length)
      halted := if s.inConnected then none else some .inDisconnect } := by
  have hd := decode_of_short _ hne hlt
  rcases tick_cases now s with ⟨c, hc, -⟩ | ⟨-, he, -⟩ | ⟨-, -, ht⟩ | ⟨-, i, rest, t, hd', -, -⟩
  · rw [h] at hc; cases hc
  · exact absurd he hne
  · rw [ht, (s.setClock now).block_of_running _ h]
    rfl
  · rw [hd] at hd'; cases hd'

theorem tick_of_nothing (now : Int) (s : State) (h : s.halted = none) (he : s.dec.got ++ s.inq = []) :
    tick now s = .next ((s.setClock now).pacerHalf now) := by
  rcases tick_cases now s with ⟨c, hc, -⟩ | ⟨-, -, ht⟩ | ⟨-, ⟨n, hn⟩, -⟩ | ⟨-, i, rest, t, hd, -, -⟩
  · rw [h] at hc; cases hc
  · exact ht
  · rw [he] at hn; cases hn
  · rw [he] at hd; cases hd

/-- Settles O7: a step with a tick to make is that tick, scheduled or free. -/
theorem stepRunsDecodedCommand : Obligations.StepRunsDecodedCommand := by
  intro s i rest hh hb hd
  refine ⟨fun now es he => ?_, fun he => ?_⟩
  · rw [step_of_env_cons s _ es (fun _ => hb) he]
    exact tick_of_ok now (s.setEnv es) i rest hh hd
  · rw [step_of_env_nil s (fun _ => hb) he]
    exact tick_of_ok _ (s.setDraws s.allocAnswers (s.draws + 1)) i rest hh hd

/-- Settles O8: the length function finds the command short, so the tick is `block`. -/
theorem truncatedCommandBlocks : Obligations.TruncatedCommandBlocks := by
  intro s hh hne hlt waits
  refine ⟨fun now => tick_of_short now s hh hne hlt, fun hb => ⟨fun now es he => ?_, fun he => ?_⟩⟩
  · rw [step_of_env_cons s _ es (fun _ => hb) he]
    exact tick_of_short now (s.setEnv es) hh hne hlt
  · rw [step_of_env_nil s (fun _ => hb) he]
    exact tick_of_short _ (s.setDraws s.allocAnswers (s.draws + 1)) hh hne hlt

theorem tick_of_idle (now : Int) (s : State) (hh : s.halted = none) (hdec : s.dec = .idle) (hq : s.inq = []) :
    tick now s = .next ((s.setClock now).pacerCheck now) := by
  have he : s.dec.got ++ s.inq = [] := by rw [hdec, hq]; rfl
  rw [tick_of_nothing now s hh he]
  unfold State.pacerHalf
  rw [if_pos ⟨hdec, hh⟩]

/-- Settles O9: with nothing to read the tick's interpreter pass is empty. -/
theorem idleTickIsThePacerCheck : Obligations.IdleTickIsThePacerCheck := by
  intro s hh hdec hq
  refine ⟨fun now => tick_of_idle now s hh hdec hq, fun hb => ⟨fun now es he => ?_, fun he => ?_⟩⟩
  · rw [step_of_env_cons s _ es (fun _ => hb) he]
    exact tick_of_idle now (s.setEnv es) hh hdec hq
  · rw [step_of_env_nil s (fun _ => hb) he]
    exact tick_of_idle _ (s.setDraws s.allocAnswers (s.draws + 1)) hh hdec hq

theorem State.injectKey_of_halted (s : State) (c : FatalCause) (code : Int) (down : Bool) (h : s.halted = some c) :
    s.injectKey code down = s := by
  simp [State.injectKey, h]

theorem State.injectKey_of_running (s : State) (code : Int) (down : Bool) (h : s.halted = none) :
    s.injectKey code down = s.sendAll [0x80#8 ||| keyPacketCode, 0x04#8, BitVec.ofInt 8 code, 0x00#8, 0x00#8,
      if down then 0x01#8 else 0x00#8] := by
  simp only [State.injectKey, h]

/-- A move of the environment that is no `start` leaves a stopped block's own fields alone. -/
theorem envMove_of_halted (e : EnvMove) (s : State) (c : FatalCause) (h : s.halted = some c)
    (hstart : ∀ t0 q a b, e ≠ .start t0 q a b) :
    ∃ env clock draws inq outq ic oc, envMove e s = .next { s with
      env := env, clock := clock, draws := draws
      inq := inq, outq := outq, inConnected := ic, outConnected := oc } := by
  cases e
  case start t0 q a b => exact absurd rfl (hstart t0 q a b)
  case tick now => exact ⟨_, _, _, _, _, _, _, tick_of_halted now s c h⟩
  case injectKey code down =>
    exact ⟨_, _, _, _, _, _, _, congrArg Host.Outcome.next (s.injectKey_of_halted c code down h)⟩
  case peerSend bs =>
    show ∃ _ _ _ _ _ _ _, Host.Outcome.next (if s.inConnected = true then _ else s) = _
    split
    · exact ⟨_, _, _, _, _, _, _, rfl⟩
    · exact ⟨_, _, _, _, _, _, _, rfl⟩
  all_goals exact ⟨_, _, _, _, _, _, _, rfl⟩

/-- Settles O10: ticks and key injections test `halted` first, and no boot command runs on a stopped block. -/
theorem stoppedBlockStaysStopped : Obligations.StoppedBlockStaysStopped := by
  intro s c h
  have hboot : s.halted = none → s.boot = [] := by simp [h]
  refine ⟨fun now => tick_of_halted now s c h, fun code down => s.injectKey_of_halted c code down h,
    fun hstart => ?_⟩
  cases he : s.env with
  | nil =>
    rw [step_of_env_nil s hboot he]
    exact ⟨_, _, _, _, _, _, _, tick_of_halted _ (s.setDraws s.allocAnswers (s.draws + 1)) c h⟩
  | cons e es =>
    rw [step_of_env_cons s e es hboot he]
    refine envMove_of_halted e (s.setEnv es) c h fun t0 q a b hne => hstart t0 q a b ?_
    rw [he, hne, List.head?_cons]

/-- A number in one byte is taken mod 256. -/
theorem byte_ofInt (v : Int) : BitVec.ofInt 8 v = BitVec.ofNat 8 (v % 256).toNat := by
  apply BitVec.eq_of_toNat_eq
  rw [BitVec.toNat_ofInt, BitVec.toNat_ofNat]
  omega

/-- Settles O11: a packet's bytes go out whole or not at all, and `code` is reduced mod 256 by being a byte. -/
theorem injectKeySendsPacket : Obligations.InjectKeySendsPacket := by
  intro s code down h
  have hsend := s.injectKey_of_running code down h
  rw [State.sendAll_eq] at hsend
  refine ⟨fun hc => ?_, fun hc => ?_⟩
  · rw [hsend, if_pos hc, byte_ofInt]
    rfl
  · rw [hsend, if_neg (by simp [hc]), if_neg (List.cons_ne_nil _ _)]
    rfl

/-- Settles O12: the peer's acts come in every state, the host's calls where no boot message is pending. -/
theorem environmentMovesActOnTheChannels : Obligations.EnvironmentMovesActOnTheChannels := by
  intro s e es he
  refine ⟨?_, ?_, ?_, ?_, ?_, fun hboot => ?_⟩
  · rintro bs rfl hc
    rw [step_of_peer s _ es he rfl]
    simp [envMove, hc, State.setInq, State.setEnv]
  · rintro bs rfl hc
    rw [step_of_peer s _ es he rfl]
    simp [envMove, hc, State.setEnv]
  · rintro n rfl
    exact step_of_peer s _ es he rfl
  · rintro rfl
    exact step_of_peer s _ es he rfl
  · rintro rfl
    exact step_of_peer s _ es he rfl
  · rw [step_of_env_cons s e es hboot he]
    refine ⟨?_, ?_, ?_, ?_⟩
    · rintro code down rfl; rfl
    · rintro now rfl; rfl
    · rintro t0 q a b rfl; rfl
    · rintro rfl; rfl

theorem bootStep_runs (s : State) :
    (∀ i rest, decode s.boot = .ok (i, rest) → bootStep s = exec i (s.setBoot rest)) ∧
    (∀ e, decode s.boot = .error e → bootStep s = .refused .bootMessageIncomplete) := by
  unfold bootStep
  exact ⟨fun i rest hd => by rw [hd], fun e hd => by rw [hd]⟩

/-- Settles O13: no call of the host comes before the boot message has run, and `bootRuns` is used up. -/
theorem bootMessageRunsFirst : Obligations.BootMessageRunsFirst := by
  intro s hh hb runs
  have hruns (es : List EnvMove) (hs : bootAdvance s = bootStep (s.setEnv es)) : runs es := by
    obtain ⟨hok, herr⟩ := bootStep_runs (s.setEnv es)
    rw [← hs, ← step_of_boot s hh hb] at hok herr
    exact ⟨hok, herr⟩
  have hself (hs : bootAdvance s = bootStep s) : runs s.env := hruns s.env hs
  refine ⟨fun he => hself ?_, fun now es he => hself ?_, fun code down es he => hself ?_,
    fun t0 q a b es he => hself ?_, fun es he => hruns es ?_⟩
  all_goals simp only [bootAdvance, he]

/-! Refusals. -/

theorem tick_next (now : Int) (s : State) : ∃ t, tick now s = .next t := by
  rcases tick_cases now s with ⟨_, _, ht⟩ | ⟨_, _, ht⟩ | ⟨_, _, ht⟩ | ⟨_, _, _, _, _, _, ht⟩ <;> exact ⟨_, ht⟩

theorem envMove_next (e : EnvMove) (s : State) : ∃ t, envMove e s = .next t := by
  cases e
  case tick now => exact tick_next now s
  all_goals exact ⟨_, rfl⟩

/-- A boot step is refused just for what is no whole command. -/
theorem bootStep_next_or_short (s : State) (hb : s.boot ≠ []) : (∃ t, bootStep s = .next t) ∨
    (bootStep s = .refused .bootMessageIncomplete ∧ s.boot.length < knownLength s.boot) := by
  rcases bootStep_cases s with ⟨i, rest, -, hs⟩ | ⟨⟨e, he⟩, hs⟩
  · rw [hs]
    exact .inl (exec_next i _)
  · exact .inr ⟨hs, short_of_decode_error s.boot hb e he⟩

/-- Settles O14: ticks, moves and commands end in next states, and only a short stream is no command. -/
theorem onlyABadBootMessageIsRefused : Obligations.OnlyABadBootMessageIsRefused := by
  intro s
  rcases step_cases s with ⟨hh, hb, hs | ⟨es, -, hs⟩⟩ | ⟨-, -, hs⟩ | ⟨e, es, -, hs⟩ <;> rw [hs]
  · rcases bootStep_next_or_short s hb with h | ⟨h, hlt⟩
    · exact .inl h
    · exact .inr ⟨h, hh, hb, hlt⟩
  · rcases bootStep_next_or_short (s.setEnv es) hb with h | ⟨h, hlt⟩
    · exact .inl h
    · exact .inr ⟨h, hh, hb, hlt⟩
  · exact .inl (tick_next _ _)
  · exact .inl (envMove_next e _)

/-! Reset and `start` (R40, R330). -/

/-- Settles O15: field by field; the pixels from the fill, the glyphs from the one slot written. -/
theorem resetLeavesStatedValues : Obligations.ResetLeavesStatedValues := by
  refine ⟨defaultMode_known, fun h => if_pos h, rfl, rfl, rfl, fun a ha => ?_, rfl, rfl, rfl, rfl, rfl, ?_,
    fun k hk => ?_, rfl, rfl, rfl, rfl, rfl, rfl, rfl, rfl, rfl, rfl, rfl, rfl, rfl, rfl, rfl, rfl⟩
  · exact (Memory.read_fill _ _ a).trans (if_pos ha)
  · exact Vector.getElem_set_self (by decide)
  · exact Vector.getElem_set_ne (by decide) k.isLt fun h => hk (Fin.ext h.symm)

/-- Settles O21: a filled framebuffer is canonical, and the default mode is a key of the table. -/
theorem resetIsSound : Obligations.ResetIsSound :=
  ⟨Memory.wf_fill _ _, ⟨le_rfl, State.reset.column_zero.2, le_rfl⟩, defaultMode_known, by decide, trivial⟩

/-- Settles O16: the fields written before the allocation do not change its draw. -/
theorem startBuildsTheStateAgain : Obligations.StartBuildsTheStateAgain := by
  intro s t0 q a b
  obtain ⟨as, n, ha⟩ := s.afterAlloc_eq
  refine ⟨fun h => ?_, fun h => ?_⟩
  · simp only [State.start, State.startClean_allocOk, State.startClean_afterAlloc, h, ha, if_true]
    rfl
  · simp only [State.start, State.startClean_allocOk, State.startClean_afterAlloc, h, ha]
    rfl

end Sys2Proof.Machine
end

section
/-! The text cursor and the scroll (R175–R185): RIGHT, DOWN, HOME, TAB, CLG, CHR and the glyph store. -/

namespace Sys2Proof.Machine

/-! Rows of the framebuffer as runs of addresses (R60). -/

/-- The rows above row `k` are the addresses below k·W. -/
theorem pixelAddr_lt_iff (w h k : Nat) (p : Point) (hp : inFrame w h p = true) :
    pixelAddr w p < k * w ↔ p.y < k := by
  obtain ⟨hx, hxw, hy, -⟩ := (inFrame_iff w h p).1 hp
  have hcol : p.x.toNat < w := by omega
  have hrow : p.y < k ↔ p.y.toNat < k := by omega
  have hw : 0 < w := by omega
  rw [hrow, ← Nat.div_lt_iff_lt_mul hw, pixelAddr, Nat.add_comm, Nat.add_mul_div_right _ _ hw,
    Nat.div_eq_of_lt hcol, Nat.zero_add]

/-- `k` rows down are k·W addresses on. -/
theorem pixelAddr_down (w k : Nat) (p : Point) (hy : 0 ≤ p.y) :
    pixelAddr w ⟨p.x, p.y + k⟩ = pixelAddr w p + k * w := by
  have hrow : (p.y + k).toNat = p.y.toNat + k := by omega
  simp only [pixelAddr, hrow, Nat.add_mul]
  omega

/-! The scroll check (R178). -/

/-- How far the cursor cell's bottom edge is below the framebuffer, where positive. -/
def State.overflow (s : State) : Int := s.curY + 8 - s.height

/-- A pixel after a scroll by `ov` rows: the pixel that far below, or `bg` where there is none. -/
def State.scrolledPixel (s : State) (p : Point) : Pixel :=
  if p.y + s.overflow < s.height then s.fb.read (pixelAddr s.width ⟨p.x, p.y + s.overflow⟩) else s.bg

theorem State.read_scroll (s : State) (h0 : 0 < s.overflow) (h1 : s.overflow < s.height) (p : Point)
    (hp : inFrame s.width s.height p = true) :
    (s.fb.scroll s.width s.height s.overflow.toNat s.bg).read (pixelAddr s.width p) = s.scrolledPixel p := by
  obtain ⟨ov, hov⟩ := Int.eq_ofNat_of_zero_le h0.le
  obtain ⟨-, -, hy, hyh⟩ := (inFrame_iff _ _ p).1 hp
  rw [hov] at h0 h1
  rw [State.scrolledPixel, hov, Int.toNat_natCast, Memory.read_scroll _ _ _ _ _ (by omega),
    pixelAddr_down s.width ov p hy]
  simp only [pixelAddr_lt_iff s.width s.height _ p hp, if_pos hyh]
  exact if_congr (by omega) rfl rfl

/-- What `scrollCheck` leaves: the cursor's row, and every pixel. -/
theorem State.scrollCheck_spec (s : State) :
    ∃ fb, s.scrollCheck = (s.setFb fb).setCursor s.curX (if s.overflow ≤ 0 then s.curY else s.height - 8) ∧
      (s.overflow ≤ 0 → fb = s.fb) ∧
      (0 < s.overflow → ∀ p, inFrame s.width s.height p = true →
        fb.read (pixelAddr s.width p) = s.scrolledPixel p) := by
  rcases s.scrollCheck_cases with ⟨h0, he⟩ | ⟨h0, h1, he⟩ | ⟨h0, h1, he⟩
  · have h0 : s.overflow ≤ 0 := h0
    exact ⟨s.fb, by rw [he, if_pos h0]; rfl, fun _ => rfl, fun h => by omega⟩
  · have h0 : 0 < s.overflow := h0
    exact ⟨s.fb.scroll s.width s.height s.overflow.toNat s.bg, by rw [he, if_neg (by omega)]; rfl,
      fun h => by omega, fun _ => s.read_scroll h0 h1⟩
  · have h0 : 0 < s.overflow := h0
    have h1 : s.height ≤ s.overflow := h1
    refine ⟨_, by rw [he, if_neg (by omega)], fun h => by omega, fun _ p hp => ?_⟩
    obtain ⟨-, -, hy, -⟩ := (inFrame_iff _ _ p).1 hp
    rw [State.scrolledPixel, if_neg (by omega), Memory.read_fill]
    exact if_pos (pixelAddr_lt _ _ p hp)

theorem State.scrollCheck_curY_le (s : State) : s.scrollCheck.curY ≤ s.scrollCheck.height - 8 := by
  obtain ⟨fb, he, -, -⟩ := s.scrollCheck_spec
  rw [he]
  show (if s.overflow ≤ 0 then s.curY else s.height - 8) ≤ s.height - 8
  unfold State.overflow
  split <;> omega

/-- Settles O32: both commands end in the scroll check. -/
theorem scrollCheckBoundsTheCursor : Obligations.ScrollCheckBoundsTheCursor :=
  fun _ _ => ⟨⟨_, rfl, State.scrollCheck_curY_le _⟩, ⟨_, rfl, State.scrollCheck_curY_le _⟩⟩

theorem exec_down (s : State) : exec .down s = .next (s.setCursor s.curX (s.curY + 8)).scrollCheck := rfl

/-- Settles O27: the overflow after one row down is that of the row before, plus 8. -/
theorem downScrollsByTheOverflow : Obligations.DownScrollsByTheOverflow := by
  intro s ov
  obtain ⟨fb, he, hkeep, hscroll⟩ := (s.setCursor s.curX (s.curY + 8)).scrollCheck_spec
  have hov : (s.setCursor s.curX (s.curY + 8)).overflow = ov := by
    show s.curY + 8 + 8 - s.height = s.curY + 16 - s.height
    omega
  have hpix (p : Point) : (s.setCursor s.curX (s.curY + 8)).scrolledPixel p =
      if p.y + ov < s.height then s.fb.read (pixelAddr s.width ⟨p.x, p.y + ov⟩) else s.bg := by
    rw [State.scrolledPixel, hov]
    rfl
  simp only [hov, hpix] at he hkeep hscroll
  exact ⟨fb, by rw [exec_down, he]; rfl, hkeep, hscroll⟩

/-! RIGHT, HOME, TAB, CLG. -/

/-- Settles O24: HOME is that update. -/
theorem homeMovesTheCursor : Obligations.HomeMovesTheCursor := fun _ => rfl

theorem State.cursorRight_eq (s : State) : s.cursorRight = s.setCursor s.nextCell.1 s.nextCell.2 := by
  have hfontW : ((fontW : Nat) : Int) = 8 := rfl
  have hfontH : ((fontH : Nat) : Int) = 8 := rfl
  unfold State.cursorRight State.nextCell
  rw [hfontW, hfontH]
  split <;> rfl

theorem exec_right (s : State) : exec .right s = .next (s.setCursor s.nextCell.1 s.nextCell.2) := by
  rw [← s.cursorRight_eq]
  rfl

/-- Settles O25: both of `right()`'s branches are `nextCell`. -/
theorem rightMovesOrWraps : Obligations.RightMovesOrWraps := exec_right

theorem after_right (s : State) : after .right s = { s with curX := s.nextCell.1, curY := s.nextCell.2 } := by
  rw [after, exec_right]
  rfl

/-- RIGHT goes on by one cell until the last cell of the row. -/
theorem after_right_inside (s : State) (x : Int) (h : x + 8 < s.width) :
    after .right { s with curX := x } = { s with curX := x + 8 } := by
  have hcell : ({ s with curX := x } : State).nextCell = (x + 8, s.curY) := if_neg (not_le.2 h)
  rw [after_right, hcell]

theorem after_right_at_end (s : State) (x : Int) (h : s.width ≤ x + 8) :
    after .right { s with curX := x } = { s with curX := 0, curY := s.curY + 8 } := by
  have hcell : ({ s with curX := x } : State).nextCell = (0, s.curY + 8) := if_pos h
  rw [after_right, hcell]

/-- Settles O26, by induction on the number of calls: each but the last goes one cell on. -/
theorem rightAcrossARowWrapsOnce : Obligations.RightAcrossARowWrapsOnce := by
  intro s n hx hw
  induction n with
  | zero =>
    intro _
    have hcols : 0 < s.cols := by have := s.width_pos; omega
    rw [if_pos hcols, Function.iterate_zero]
    show s = { s with curX := 8 * (0 : Int) }
    rw [Int.mul_zero, ← hx]
  | succ n ih =>
    intro hn
    rw [Function.iterate_succ_apply', ih (by omega), if_pos (by omega)]
    by_cases hlast : n + 1 < s.cols
    · rw [after_right_inside s _ (by omega), if_pos hlast]
      have hcol : (8 * n + 8 : Int) = 8 * (n + 1 : Nat) := by omega
      rw [hcol]
    · rw [after_right_at_end s _ (by omega), if_neg hlast]

/-- Settles O29: the framebuffer is that of `clearFb`. -/
theorem clgClears : Obligations.ClgClears := fun s => ⟨s.clearFb.fb, rfl, s.read_clearFb⟩

/-- Settles O30: a cell is in the grid where its right and bottom edges are in the framebuffer. -/
theorem tabGoesToACell : Obligations.TabGoesToACell := by
  intro s col row
  have hcell (v n : Nat) : v < n / 8 ↔ (v + 1) * 8 ≤ n := by omega
  have hpos (v : Nat) : ((v * 8 : Nat) : Int) = 8 * (v : Int) := by omega
  have hexec : exec (.tab col row) s = .next (if col.toNat < s.width / 8 ∧ row.toNat < s.height / 8 then
      s.setCursor (col.toNat * 8 : Nat) (row.toNat * 8 : Nat) else s) := rfl
  rw [hexec]
  simp only [hcell, hpos]
  rfl

/-! CHR and the glyph store. -/

theorem exec_chr (s : State) (c : Byte) : exec (.chr c) s =
    .next ((s.renderGlyph s.glyphs[slotOf c]).setCursor s.nextCell.1 s.nextCell.2).scrollCheck := by
  have hright := (s.renderGlyph s.glyphs[slotOf c]).cursorRight_eq
  show Host.Outcome.next (s.renderGlyph s.glyphs[slotOf c]).cursorRight.scrollCheck = _
  rw [hright]
  rfl

/-- Settles O31: the scroll check's pixels are those of the state it starts from, whose pixels R170 gives. -/
theorem chrRendersAdvancesScrolls : Obligations.ChrRendersAdvancesScrolls := by
  intro s c _ ov
  have hread := s.read_renderGlyph s.glyphs[slotOf c]
  have hexec := exec_chr s c
  obtain ⟨fb, he, hkeep, hscroll⟩ :=
    ((s.renderGlyph s.glyphs[slotOf c]).setCursor s.nextCell.1 s.nextCell.2).scrollCheck_spec
  have hov : ((s.renderGlyph s.glyphs[slotOf c]).setCursor s.nextCell.1 s.nextCell.2).overflow = ov := rfl
  rw [hov] at he hkeep hscroll
  refine ⟨fb, by rw [hexec, he]; rfl, fun p hp => ?_⟩
  by_cases h0 : ov ≤ 0
  · rw [if_pos h0, hkeep h0]
    exact hread p hp
  · rw [if_neg h0]
    refine (hscroll (by omega) p hp).trans ?_
    rw [State.scrolledPixel, hov]
    by_cases hrow : p.y + ov < s.height
    · obtain ⟨hx, hxw, hy, -⟩ := (inFrame_iff _ _ p).1 hp
      have hq : inFrame s.width s.height ⟨p.x, p.y + ov⟩ = true :=
        (inFrame_iff _ _ _).2 ⟨hx, hxw, by show 0 ≤ p.y + ov; omega, hrow⟩
      rw [if_pos hrow, ← hread _ hq]
      exact if_pos hrow
    · rw [if_neg hrow]
      exact if_neg hrow

/-- CHR where the next cell is inside the framebuffer: the glyph's pixels, and the cursor one cell on. -/
theorem after_chr_of_fits (s : State) (c : Byte) (hc : printable c = true) (hfit : s.nextCell.2 + 8 ≤ s.height) :
    ∃ fb, after (.chr c) s = { s with fb := fb, curX := s.nextCell.1, curY := s.nextCell.2 } ∧
      ∀ p, inFrame s.width s.height p = true → fb.read (pixelAddr s.width p) = s.rendered s.glyphs[slotOf c] p := by
  obtain ⟨fb, he, hread⟩ := chrRendersAdvancesScrolls s c hc
  rw [if_pos (by omega)] at he
  refine ⟨fb, by rw [after, he], fun p hp => ?_⟩
  rw [hread p hp, if_pos (by omega)]

theorem State.nextCell_of_inside (s : State) (h : s.curX + 8 < s.width) : s.nextCell = (s.curX + 8, s.curY) :=
  if_neg (by omega)

/-- Settles O35: codes from 32 on have different slots. -/
theorem defglyphStoresItsRows : Obligations.DefglyphStoresItsRows := by
  intro s c r0 r1 r2 r3 r4 r5 r6 r7 hc
  refine ⟨_, rfl, fun k => ?_⟩
  have hc' : 32 ≤ c.toNat := by
    have : (0x20#8).toNat ≤ c.toNat := by simpa [glyphSel, BitVec.le_def] using hc
    simpa using this
  have hslot : (slotOf c).val = c.toNat - 32 := rfl
  by_cases hk : k.val + 32 = c.toNat
  · rw [if_pos hk]
    have hk : slotOf c = k := Fin.ext (by omega)
    subst hk
    exact Vector.getElem_set_self (slotOf c).isLt
  · rw [if_neg hk]
    exact Vector.getElem_set_ne (slotOf c).isLt k.isLt (by omega)

/-- A blank glyph at a cell that fits, drawn by CHR: its cell is `bg` and no other pixel changes. -/
theorem after_chr_of_blank (s : State) (c : Byte) (hc : printable c = true) (hfit : s.nextCell.2 + 8 ≤ s.height)
    (hblank : s.glyphs[slotOf c] = Glyph.blank) (p : Point) (hp : inFrame s.width s.height p = true) :
    (after (.chr c) s).fbRead p = if inCell s.curX s.curY p then s.bg else s.fbRead p := by
  obtain ⟨fb, he, hread⟩ := after_chr_of_fits s c hc hfit
  rw [he, ← s.rendered_blank, ← hblank]
  exact hread p hp

/-- Settles O36: the slot holds the blank bitmap when CHR reads it. -/
theorem redefinedGlyphRendersAtOnce : Obligations.RedefinedGlyphRendersAtOnce := by
  intro s c hc hfit p hp
  have hslot : (s.glyphWrite (slotOf c) Glyph.blank).glyphs[slotOf c] = Glyph.blank :=
    Vector.getElem_set_self (slotOf c).isLt
  exact after_chr_of_blank (s.glyphWrite (slotOf c) Glyph.blank) c hc hfit hslot p hp

theorem after_bs (s : State) : ∃ fb, after .bs s = { s with fb := fb, curX := max 0 (s.curX - 8) } ∧
    ∀ p, inFrame s.width s.height p = true →
      fb.read (pixelAddr s.width p) = if inCell (max 0 (s.curX - 8)) s.curY p then s.bg else s.fbRead p := by
  obtain ⟨fb, he, hread⟩ := backspaceBlanksTheCell.2 s
  exact ⟨fb, by rw [after, he], hread⟩

theorem State.rendered_outside (s : State) (g : Glyph) (p : Point) (h : ¬ inCell s.curX s.curY p) :
    s.rendered g p = s.fbRead p := if_neg h

/-- Settles O34: the space blanks the cell, and neither it, the backspace nor the glyph draws outside it. -/
theorem glyphBackspaceSpaceLeavesBackground : Obligations.GlyphBackspaceSpaceLeavesBackground := by
  intro s c hc hx hxw hy hspace p hp
  have hcell := s.nextCell_of_inside hxw
  have hback : max 0 (s.curX + 8 - 8) = s.curX := by omega
  obtain ⟨fb₁, hglyph, hread₁⟩ := after_chr_of_fits s c hc (by rw [hcell]; exact hy)
  rw [hcell] at hglyph
  obtain ⟨fb₂, hbs, hread₂⟩ := after_bs { s with fb := fb₁, curX := s.curX + 8 }
  simp only [hback] at hbs hread₂
  have hcell₂ := State.nextCell_of_inside { s with fb := fb₂ } hxw
  rw [hglyph, hbs]
  refine (after_chr_of_blank { s with fb := fb₂ } 0x20#8 rfl (by rw [hcell₂]; exact hy) hspace p hp).trans ?_
  by_cases hin : inCell s.curX s.curY p
  · exact (if_pos hin).trans (if_pos hin).symm
  · rw [if_neg hin, if_neg hin]
    calc fb₂.read (pixelAddr s.width p)
      _ = fb₁.read (pixelAddr s.width p) := (hread₂ p hp).trans (if_neg hin)
      _ = s.rendered s.glyphs[slotOf c] p := hread₁ p hp
      _ = s.fbRead p := s.rendered_outside _ p hin

end Sys2Proof.Machine
end

section
/-! The colour commands and the interpreter's own commands: selections, diagnostics, queries, the mode switch, and
what the CPU peer learns from them (R133–R155, R260–R264, R301). -/

namespace Sys2Proof.Machine

/-! Colours (R260–R264). -/

/-- Every colour count divides 128, so the bit that selects `bg` does not change the palette position (R262). -/
theorem colours_dvd_128 (c : ColourCount) : c.toNat ∣ 128 := by
  cases c <;> decide

theorem sub_128_mod (n c : Nat) (hn : n ∣ 128) (hc : 128 ≤ c) : (c - 128) % n = c % n := by
  obtain ⟨k, hk⟩ := hn
  rw [hk, Nat.sub_mul_mod (hk ▸ hc)]

/-- Settles O49: the palette's length divides 128, so `bg`'s own bit does not count. -/
theorem colourSelectsTextColours : Obligations.ColourSelectsTextColours := by
  intro s c n
  have hmod (hc : 128 ≤ c.toNat) : (c.toNat - 128) % n = c.toNat % n := sub_128_mod n _ (colours_dvd_128 _) hc
  refine ⟨?_, ?_, hmod⟩
  · show ColourCount.toNat _ = 2 ∨ ColourCount.toNat _ = 16 ∨ ColourCount.toNat _ = 64
    cases (modeEntry s.mode).colours <;> decide
  · by_cases hc : c.toNat < 128
    · simp only [exec, execColour, if_pos hc]
      rfl
    · rw [hmod (by omega)]
      simp only [exec, execColour, if_neg hc]
      rfl

/-- Settles O50: `resolve` written out. -/
theorem gcolSelectsGraphicsColour : Obligations.GcolSelectsGraphicsColour := fun _ _ _ => rfl

/-- Settles O51: the three answer the state they are given. -/
theorem noOpCommandsChangeNothing : Obligations.NoOpCommandsChangeNothing :=
  fun _ _ _ _ _ _ _ _ => ⟨rfl, rfl, rfl⟩

/-! Diagnostics and queries. -/

/-- Settles O52: `raiseDiag` written out. -/
theorem unknownCommandsOnlyLog : Obligations.UnknownCommandsOnlyLog := fun _ _ => ⟨rfl, rfl, rfl⟩

theorem byte_ofNat_mod (n : Nat) : BitVec.ofNat 8 (n % 256) = BitVec.ofNat 8 n :=
  BitVec.eq_of_toNat_eq (by simp)

theorem State.sendPacket_of_connected (s : State) (code : Byte) (payload : List Byte) (h : s.outConnected = true) :
    s.sendPacket code payload =
      s.setOutq (s.outq ++ ((code ||| 0x80#8) :: BitVec.ofNat 8 payload.length :: payload)) := by
  rw [State.sendPacket_eq, if_pos h]

theorem State.sendPacket_of_gone (s : State) (code : Byte) (payload : List Byte) (h : s.outConnected = false) :
    s.sendPacket code payload = s.raiseFatal .outDisconnect := by
  rw [State.sendPacket_eq, if_neg (by simp [h])]

/-- R155's payload with every byte reduced mod 256, as R143 and the reply table write it. -/
theorem modeInfo_eq (m : Byte) : modeInfo m =
    [BitVec.ofNat 8 ((modeEntry m).width % 256), BitVec.ofNat 8 ((modeEntry m).width / 256),
      BitVec.ofNat 8 ((modeEntry m).height % 256), BitVec.ofNat 8 ((modeEntry m).height / 256),
      BitVec.ofNat 8 ((modeEntry m).width / 8 % 256), BitVec.ofNat 8 ((modeEntry m).height / 8 % 256),
      BitVec.ofNat 8 ((modeEntry m).colours.toNat % 256)] := by
  rw [byte_ofNat_mod ((modeEntry m).width / 8), byte_ofNat_mod ((modeEntry m).height / 8),
    byte_ofNat_mod (modeEntry m).colours.toNat]
  rfl

theorem exec_gpoll (s : State) (b : Byte) : exec (.gpoll b) s = .next (s.sendPacket 0x00#8 [b]) := rfl

theorem exec_qcursor (s : State) :
    exec .qcursor s = .next (s.sendPacket 0x02#8 [cellByte s.curX, cellByte s.curY]) := rfl

theorem exec_qmode (s : State) : exec .qmode s = .next (s.sendPacket 0x06#8 (modeInfo s.mode)) := rfl

/-- Settles O53: each query is one packet. -/
theorem queriesReply : Obligations.QueriesReply := by
  intro s b h
  rw [exec_gpoll, exec_qcursor, exec_qmode]
  simp only [State.sendPacket_of_connected s _ _ h]
  refine ⟨rfl, ?_, ?_⟩
  · simp only [cellByte, byte_ofInt]
    rfl
  · rw [modeInfo_eq]
    rfl

/-- Settles O54: the packet's first byte stops the block. -/
theorem queriesWithoutReceiverStop : Obligations.QueriesWithoutReceiverStop := by
  intro s b h
  rw [exec_gpoll, exec_qcursor, exec_qmode]
  simp only [State.sendPacket_of_gone s _ _ h]
  exact ⟨rfl, rfl, rfl⟩

/-- Settles O55: a byte is nonzero where its number is positive. -/
theorem logicalWritesTheFlag : Obligations.LogicalWritesTheFlag := by
  intro s b
  have hflag : flagOfByte b = decide (0 < b.toNat) := by revert b; decide
  rw [← hflag]
  rfl

/-! The mode switch (R150–R155). -/

/-- Settles O56: the draw, the reset and the packet in turn. -/
theorem modeSwitchResetsAndReplies : Obligations.ModeSwitchResetsAndReplies := by
  intro s m e hm ha hc
  have he : modeEntry m = e := by rw [modeEntry, hm]; rfl
  obtain ⟨as, n, hself⟩ := s.afterAlloc_eq
  have hread (a : Nat) (h : a < e.width * e.height) := (Memory.read_fill _ (resolve m 0#8) a).trans (if_pos h)
  refine ⟨Memory.fill (e.width * e.height) (resolve m 0#8), ?_, hread⟩
  rw [exec_mode_of_allocated s m (by rw [hm]; rfl) ha, hself,
    State.sendPacket_of_connected ((s.setDraws as n).modeReset m) _ _ hc, modeInfo_eq, State.modeReset, he]
  rfl

/-- Settles O57: the first three clauses are MODE's failures in R150's order, the last two the draw. -/
theorem modeSwitchFailures : Obligations.ModeSwitchFailures := by
  intro s m
  obtain ⟨as, n, hself⟩ := s.afterAlloc_eq
  refine ⟨exec_mode_of_unknown s m, fun hm ha => ?_, fun hm ha hc => ?_, fun ok as h => ?_, fun h => ?_⟩
  · rw [exec_mode_of_not_allocated s m hm ha, hself]
    rfl
  · have hread (a : Nat) (h : a < (modeEntry m).width * (modeEntry m).height) :=
      (Memory.read_fill _ (resolve m 0#8) a).trans (if_pos h)
    refine ⟨Memory.fill ((modeEntry m).width * (modeEntry m).height) (resolve m 0#8), ?_, hread⟩
    rw [exec_mode_of_allocated s m hm ha, hself,
      State.sendPacket_of_gone ((s.setDraws as n).modeReset m) _ _ hc]
    rfl
  · simp [State.allocOk, State.afterAlloc, h, State.setDraws]
  · simp [State.allocOk, State.afterAlloc, h, State.setDraws]

/-! What the CPU peer learns (R301): each update, on two states it cannot tell apart. -/

section samePeerView

variable {s s' : State}

theorem samePeerView.refl (s : State) : samePeerView s s := ⟨rfl, rfl, rfl, rfl, rfl, rfl, rfl⟩

theorem samePeerView.symm (h : samePeerView s s') : samePeerView s' s := by
  obtain ⟨h1, h2, h3, h4, h5, h6, h7⟩ := h
  exact ⟨h1.symm, h2.symm, h3.symm, h4.symm, h5.symm, h6.symm, h7.symm⟩

theorem samePeerView.trans {s'' : State} (h : samePeerView s s') (h' : samePeerView s' s'') :
    samePeerView s s'' := by
  obtain ⟨h1, h2, h3, h4, h5, h6, h7⟩ := h
  obtain ⟨h1', h2', h3', h4', h5', h6', h7'⟩ := h'
  exact ⟨h1.trans h1', h2.trans h2', h3.trans h3', h4.trans h4', h5.trans h5', h6.trans h6', h7.trans h7'⟩

/-- Two updates that each leave the peer's view. -/
theorem samePeerView.both {t t' : State} (h : samePeerView s s') (ht : samePeerView s t)
    (ht' : samePeerView s' t') : samePeerView t t' := (ht.symm.trans h).trans ht'

theorem samePeerView.setCursor (h : samePeerView s s') {x x' y y' : Int} (hx : x = x') (hy : y = y') :
    samePeerView (s.setCursor x y) (s'.setCursor x' y') := by
  obtain ⟨h1, -, -, h4, h5, h6, h7⟩ := h
  exact ⟨h1, hx, hy, h4, h5, h6, h7⟩

theorem samePeerView.width (h : samePeerView s s') : s.width = s'.width := by
  rw [State.width, h.1, State.width]

theorem samePeerView.height (h : samePeerView s s') : s.height = s'.height := by
  rw [State.height, h.1, State.height]

theorem samePeerView.sendPacket (h : samePeerView s s') (code : Byte) {p p' : List Byte} (hp : p = p') :
    samePeerView (s.sendPacket code p) (s'.sendPacket code p') := by
  obtain ⟨h1, h2, h3, h4, h5, h6, h7⟩ := h
  rw [State.sendPacket_eq, State.sendPacket_eq, ← h5, ← hp]
  split
  · exact ⟨h1, h2, h3, congrArg (· ++ _) h4, h5, h6, h7⟩
  · exact ⟨h1, h2, h3, h4, h5, h6, h7⟩

theorem samePeerView.scrollCheck (h : samePeerView s s') : samePeerView s.scrollCheck s'.scrollCheck := by
  obtain ⟨-, hx, hy, -⟩ := id h
  have hov : s.overflow = s'.overflow := by rw [State.overflow, hy, h.height, State.overflow]
  obtain ⟨fb, he, -⟩ := s.scrollCheck_spec
  obtain ⟨fb', he', -⟩ := s'.scrollCheck_spec
  have hfb : samePeerView (s.setFb fb) (s'.setFb fb') := h
  rw [he, he', hov, hy, h.height]
  exact hfb.setCursor hx rfl

theorem samePeerView.nextCell (h : samePeerView s s') : s.nextCell = s'.nextCell := by
  obtain ⟨-, hx, hy, -⟩ := id h
  rw [State.nextCell, hx, hy, h.width, State.nextCell]

theorem samePeerView.afterAlloc (h : samePeerView s s') : samePeerView s.afterAlloc s'.afterAlloc := by
  obtain ⟨h1, h2, h3, h4, h5, h6, h7⟩ := h
  unfold State.afterAlloc
  rw [← h6, ← h7]
  split <;> exact ⟨h1, h2, h3, h4, h5, rfl, rfl⟩

theorem samePeerView.modeReset (h : samePeerView s s') (m : Byte) :
    samePeerView (s.modeReset m) (s'.modeReset m) := by
  obtain ⟨-, -, -, h4, h5, h6, h7⟩ := h
  exact ⟨rfl, rfl, rfl, h4, h5, h6, h7⟩

theorem samePeerView.allocOk (h : samePeerView s s') (m : Byte) : s.allocOk m = s'.allocOk m := by
  obtain ⟨-, -, -, -, -, h6, h7⟩ := h
  rw [State.allocOk, State.allocOk, h6, h7]

theorem samePeerView.exec_mode (h : samePeerView s s') (m : Byte) (t t' : State) (ht : exec (.mode m) s = .next t)
    (ht' : exec (.mode m) s' = .next t') : samePeerView t t' := by
  rcases exec_mode_cases s m with ⟨hm, he⟩ | ⟨hm, ha, he⟩ | ⟨hm, ha, he⟩ <;> rw [he] at ht <;> cases ht
  · rw [exec_mode_of_unknown s' m hm] at ht'
    cases ht'
    exact h
  · rw [exec_mode_of_not_allocated s' m hm (h.allocOk m ▸ ha)] at ht'
    cases ht'
    exact h.afterAlloc
  · rw [exec_mode_of_allocated s' m hm (h.allocOk m ▸ ha)] at ht'
    cases ht'
    exact (h.afterAlloc.modeReset m).sendPacket _ rfl

/-- PLOT draws, pushes and logs, none of which the peer sees. -/
theorem State.plotDraw_samePeerView (s : State) (m : Byte) : samePeerView s (s.plotDraw m) := by
  unfold State.plotDraw
  cases plotClass m <;> exact .refl s

end samePeerView

/-- Settles O59: replies and the cursor's moves read the mode, the cursor, the channel and the answers only. -/
theorem repliesShowOnlyModeAndCursor : Obligations.RepliesShowOnlyModeAndCursor := by
  intro i s s' t t' h ht ht'
  obtain ⟨hmode, hx, hy, -⟩ := id h
  cases i
  case mode m => exact h.exec_mode m t t' ht ht'
  case right =>
    rw [exec_right] at ht ht'
    cases ht; cases ht'
    exact h.setCursor (by rw [h.nextCell]) (by rw [h.nextCell])
  case chr c =>
    rw [exec_chr] at ht ht'
    cases ht; cases ht'
    have hdrawn : samePeerView (s.renderGlyph s.glyphs[slotOf c]) (s'.renderGlyph s'.glyphs[slotOf c]) := h
    exact (hdrawn.setCursor (by rw [h.nextCell]) (by rw [h.nextCell])).scrollCheck
  all_goals cases ht; cases ht'
  case unk | xunkSub | xunkSel | defcol | keynop | audio | clg | gcol | logical | defglyph | origin => exact h
  case colour c => split <;> exact h
  case plot m x y =>
    have hpush :
        samePeerView (s.push (s.transform (operandPoint x y))) (s'.push (s'.transform (operandPoint x y))) := h
    exact hpush.both (State.plotDraw_samePeerView _ m) (State.plotDraw_samePeerView _ m)
  case left => exact h.setCursor (by rw [hx]) hy
  case bs => exact (h.setCursor (by rw [hx]) hy : samePeerView s.cursorLeft s'.cursorLeft)
  case down => exact (h.setCursor hx (by rw [hy])).scrollCheck
  case up => exact h.setCursor hx (by rw [hy])
  case cr => exact h.setCursor rfl hy
  case home => exact h.setCursor rfl rfl
  case cls => exact (h : samePeerView s.clearFb s'.clearFb).setCursor rfl rfl
  case tab col row =>
    rw [State.cols, State.rows, h.width, h.height]
    show samePeerView _ (if col.toNat < s'.width / fontW ∧ row.toNat < s'.height / fontH then _ else s')
    split
    · exact h.setCursor rfl rfl
    · exact h
  case gpoll b => exact h.sendPacket _ rfl
  case qcursor => exact h.sendPacket _ (by rw [hx, hy])
  case qmode => exact h.sendPacket _ (by rw [hmode])

end Sys2Proof.Machine
end

section
/-! The frame pacer (R281–R285). -/

namespace Sys2Proof.Machine

theorem State.blinkUpdate_eq (s : State) (now : Int) : s.blinkUpdate now =
    s.setBlink (if s.lastBlinkUs + 500000 ≤ now then !s.blinkOn else s.blinkOn)
      (if s.lastBlinkUs + 500000 ≤ now then now else s.lastBlinkUs) := by
  have hiff : now - s.lastBlinkUs ≥ blinkHalfPeriodUs ↔ s.lastBlinkUs + 500000 ≤ now := by
    show now - s.lastBlinkUs ≥ 500000 ↔ _
    omega
  unfold State.blinkUpdate
  simp only [hiff]
  split <;> rfl

theorem State.pacerCheck_of_not_due (s : State) (now : Int) (h : ¬ s.lastPresentUs + s.intervalUs ≤ now) :
    s.pacerCheck now = s := if_neg (by omega)

theorem State.pacerCheck_of_due (s : State) (now : Int) (h : s.lastPresentUs + s.intervalUs ≤ now) :
    s.pacerCheck now = (s.blinkUpdate now).present.setLastPresent now := if_pos (by omega)

theorem State.rowsOf_length (s : State) (colour : Nat → Nat → Colour) : (s.rowsOf colour).length = s.height := by
  simp [State.rowsOf]

theorem State.length_of_mem_rowsOf (s : State) (colour : Nat → Nat → Colour) (row : List Colour)
    (h : row ∈ s.rowsOf colour) : row.length = s.width := by
  obtain ⟨y, -, rfl⟩ := List.mem_map.1 h
  simp

/-- Settles O60: the frame is the one of the state after the blink's update, read through its rows. -/
theorem pacerCheckPresentsWhenDue : Obligations.PacerCheckPresentsWhenDue := by
  intro s now due toggles on
  refine ⟨s.pacerCheck_of_not_due now, fun hdue => ⟨(s.setBlink on s.lastBlinkUs).frame, ?_, rfl, rfl, rfl, rfl,
    rfl, State.rowsOf_length .., State.rowsOf_length .., fun row hrow => ?_, fun x y hx hy => ⟨?_, ?_⟩⟩⟩
  · rw [s.pacerCheck_of_due now hdue, s.blinkUpdate_eq]
    rfl
  · rcases List.mem_append.1 hrow with hrow | hrow
    · exact State.length_of_mem_rowsOf _ _ _ hrow
    · exact State.length_of_mem_rowsOf _ _ _ hrow
  · exact State.rowsOf_get _ _ x y hx hy
  · exact State.rowsOf_get _ _ x y hx hy

end Sys2Proof.Machine
end

section
/-! The coordinate transform, ORIGIN and PLOT (R211–R226, R250). -/

namespace Sys2Proof.Machine

theorem State.transform_device (s : State) (p : Point) (h : s.logical = false) :
    s.transform p = ⟨p.x + s.origin.x, p.y + s.origin.y⟩ := by
  simp [State.transform, State.translate, State.scale, h]

theorem State.transform_logical (s : State) (p : Point) (h : s.logical = true) : s.transform p =
    ⟨(p.x * s.width).tdiv 1280 + s.origin.x, s.height - (p.y * s.height).tdiv 1024 - s.origin.y⟩ := by
  simp [State.transform, State.translate, State.scale, h, logicalW, logicalH]

/-- Settles O37: one equation a coordinate mode. -/
theorem transformScalesThenTranslates : Obligations.TransformScalesThenTranslates :=
  fun s x y => ⟨s.transform_device ⟨x, y⟩, s.transform_logical ⟨x, y⟩⟩

/-- Settles O38: each coordinate's sum is taken apart again. -/
theorem translateIsInvertible : Obligations.TranslateIsInvertible := by
  rintro s ⟨x, y⟩
  refine ⟨fun h => ⟨by simp [State.scale, h], ?_⟩, fun h => ?_⟩
  · simp [State.translate, h]
  · have hy : s.height - (s.height - y - s.origin.y) - s.origin.y = y := by omega
    simp [State.translate, h, hy]

/-- Settles O47: the origin cancels between the two transformed points. -/
theorem relativeRadiusIsTheOperandVector : Obligations.RelativeRadiusIsTheOperandVector := by
  intro s x y h
  rw [s.transform_device _ h, s.transform_device _ h]
  have hx : x + s.origin.x - (0 + s.origin.x) = x := by omega
  have hy : y + s.origin.y - (0 + s.origin.y) = y := by omega
  have hpos : 0 ≤ x * x + y * y := add_nonneg (mul_self_nonneg x) (mul_self_nonneg y)
  simp only [distSq, hx, hy, Int.toNat_of_nonneg hpos, sq]

theorem i16_eq_toInt (w : Word16) : i16 w = w.toInt := by
  rw [i16, BitVec.toInt_eq_toNat_cond]
  exact if_congr (by omega) rfl rfl

/-- Settles O48: R92's value of a field is the word's two's complement value. -/
theorem originIsStoredAsReceived : Obligations.OriginIsStoredAsReceived := by
  intro s x0 x1 y0 y1
  rw [← i16_eq_toInt, ← i16_eq_toInt]
  rfl

/-- The points a plot class draws, from the history after the push (R221–R224, R226). -/
def State.plotPoints (s : State) (c : PlotClass) : List Point :=
  match c with
  | .move => []
  | .line => linePoints s.hist.p2 s.hist.p1
  | .dot => [s.hist.p1]
  | .triangle => trianglePoints s.hist.p1 s.hist.p2 s.hist.p3
  | .circleRel => circlePoints s.hist.p2 (distSq s.hist.p1 (s.transform ⟨0, 0⟩))
  | .circleAbs => circlePoints s.hist.p2 (distSq s.hist.p1 s.hist.p2)
  | .unsupported => []

/-- PLOT after its push: the class's points, and the diagnostic of an unsupported one. -/
theorem State.plotDraw_eq (s : State) (m : Byte) : s.plotDraw m =
    (s.draw (s.plotPoints (plotClass m)) s.gcol).setDiagLog
      (if plotClass m = .unsupported then s.diagLog ++ [.plotUnsupported m] else s.diagLog) := by
  unfold State.plotDraw
  cases plotClass m <;> rfl

/-- Settles O39: one draw of the class's points, in a state whose history is the pushed one. -/
theorem plotPushesThenDraws : Obligations.PlotPushesThenDraws := by
  intro s m x y p1 pts
  have hpts : (s.push p1).plotPoints (plotClass m) = pts := by
    simp only [pts]
    cases plotClass m <;> rfl
  refine ⟨((s.push p1).draw pts s.gcol).fb, ?_, fun a => (s.push p1).draw_read pts s.gcol a⟩
  show Host.Outcome.next ((s.push p1).plotDraw m) = _
  rw [State.plotDraw_eq, hpts]
  rfl

end Sys2Proof.Machine
end

section
/-! Lines and edge walks (R232–R237): the rounded share k/n of a length that both walks give, and the walks
themselves. -/

namespace Sys2Proof.Machine

/-! The rounded share. -/

/-- k/n of `w`, rounded to the nearest number, a half up. -/
def roundedShare (n w k : Nat) : Nat := (2 * k * w + n) / (2 * n)

section share

variable {n : Nat} (w k : Nat)

/-- The rounded share lies within half a unit of the true one. -/
theorem roundedShare_bounds (hn : 0 < n) : 2 * (n * roundedShare n w k) ≤ 2 * (k * w) + n ∧
    2 * (k * w) + n < 2 * (n * roundedShare n w k) + 2 * n := by
  have hdiv := Nat.div_add_mod (2 * k * w + n) (2 * n)
  have hmod := Nat.mod_lt (2 * k * w + n) (show 0 < 2 * n by omega)
  have hshare : (2 * k * w + n) / (2 * n) = roundedShare n w k := rfl
  rw [hshare, Nat.mul_assoc 2 n] at hdiv
  rw [Nat.mul_assoc 2 k w] at hdiv hmod
  omega

theorem roundedShare_eq {q : Nat} (hlo : 2 * (n * q) ≤ 2 * (k * w) + n)
    (hhi : 2 * (k * w) + n < 2 * (n * q) + 2 * n) : roundedShare n w k = q := by
  refine Nat.div_eq_of_lt_le ?_ ?_ <;> nlinarith

theorem roundedShare_zero : roundedShare n w 0 = 0 := by
  rcases Nat.eq_zero_or_pos n with rfl | hn
  · simp [roundedShare]
  · exact roundedShare_eq w 0 (by omega) (by omega)

theorem roundedShare_self (hn : 0 < n) : roundedShare n w n = w :=
  roundedShare_eq w n (by omega) (by omega)

/-- All of the length at once: the share is the step's number. -/
theorem roundedShare_major (hn : 0 < n) : roundedShare n n k = k :=
  roundedShare_eq n k (by rw [Nat.mul_comm n k]; omega) (by rw [Nat.mul_comm n k]; omega)

/-- One step further the share grows by one or not at all. -/
theorem roundedShare_succ (hn : 0 < n) (hw : w ≤ n) : roundedShare n w (k + 1) = roundedShare n w k +
    if 2 * (n * roundedShare n w k) + n ≤ 2 * (k * w) + 2 * w then 1 else 0 := by
  obtain ⟨hlo, hhi⟩ := roundedShare_bounds w k hn
  split
  · refine roundedShare_eq w (k + 1) ?_ ?_ <;> rw [Nat.mul_add, Nat.add_mul] <;> omega
  · refine roundedShare_eq w (k + 1) ?_ ?_ <;> simp only [Nat.add_zero, Nat.add_mul] <;> omega

theorem roundedShare_le (hn : 0 < n) (hk : k ≤ n) : roundedShare n w k ≤ w := by
  obtain ⟨hlo, hhi⟩ := roundedShare_bounds w k hn
  by_contra hgt
  have h1 : n * (w + 1) ≤ n * roundedShare n w k := Nat.mul_le_mul_left n (by omega)
  have h2 : k * w ≤ n * w := Nat.mul_le_mul_right w hk
  rw [Nat.mul_add] at h1
  omega

end share
/-! The line (R232). -/

section line

/-- The number of steps of a line (R233). -/
def lineSteps (a b : Point) : Nat := max (b.x - a.x).natAbs (b.y - a.y).natAbs

/-- Position `k` of a line: in each coordinate the rounded share k/n of the way. -/
def linePos (a b : Point) (k : Nat) : Point :=
  ⟨a.x + (b.x - a.x).sign * (roundedShare (lineSteps a b) (b.x - a.x).natAbs k : Nat),
    a.y + (b.y - a.y).sign * (roundedShare (lineSteps a b) (b.y - a.y).natAbs k : Nat)⟩

/-- The walk's error after steps that took the x share `i` and the y share `j` (R232): each x step adds dy, each
y step adds dx. -/
def walkError (w d i j : Nat) : Int := (w : Int) - d - d * i + w * j

/-- The walk's error at position `k`. -/
def lineErr (a b : Point) (k : Nat) : Int :=
  walkError (b.x - a.x).natAbs (b.y - a.y).natAbs (roundedShare (lineSteps a b) (b.x - a.x).natAbs k)
    (roundedShare (lineSteps a b) (b.y - a.y).natAbs k)

/-- The two coordinates play the same part, with the error's sign turned. -/
theorem walkError_swap (w d i j : Nat) : walkError d w j i = -walkError w d i j := by
  unfold walkError
  ring

theorem walkError_step (w d i j : Nat) (p q : Prop) [Decidable p] [Decidable q] :
    walkError w d (i + if p then 1 else 0) (j + if q then 1 else 0) =
      walkError w d i j + (if p then -(d : Int) else 0) + (if q then (w : Int) else 0) := by
  unfold walkError
  split_ifs <;> push_cast <;> ring

/-- The error decides just the steps that the rounded share takes. On the longer side every step is one; on the
shorter side both say whether the next share is reached. -/
theorem roundedShare_step (w d k : Nat) (hn : 0 < max w d) :
    roundedShare (max w d) w (k + 1) = roundedShare (max w d) w k +
      if 2 * walkError w d (roundedShare (max w d) w k) (roundedShare (max w d) d k) ≥ -(d : Int) then 1 else 0 := by
  rcases le_total d w with hdw | hwd
  · rw [max_eq_left hdw] at *
    obtain ⟨hlo, hhi⟩ := roundedShare_bounds d k hn
    have hpos : 2 * walkError w d k (roundedShare w d k) ≥ -(d : Int) := by
      unfold walkError
      rw [Nat.mul_comm k d] at hhi
      zify at hhi hdw
      linarith
    rw [roundedShare_major k hn, roundedShare_major (k + 1) hn, if_pos hpos]
  · rw [max_eq_right hwd] at *
    have hiff : 2 * walkError w d (roundedShare d w k) k ≥ -(d : Int) ↔
        2 * (d * roundedShare d w k) + d ≤ 2 * (k * w) + 2 * w := by
      unfold walkError
      rw [Nat.mul_comm k w]
      zify
      constructor <;> intro h <;> linarith
    rw [roundedShare_major k hn, roundedShare_succ w k hn hwd]
    simp only [hiff]

/-- One step towards `b` in one coordinate, where the share grows with `c` and there is some way to go. -/
theorem coordinate_step (a b : Int) (i : Nat) (c : Prop) [Decidable c] (hc : c → a ≠ b) :
    a + (b - a).sign * ((i + if c then 1 else 0 : Nat) : Int) =
      if c then a + (b - a).sign * i + (if a < b then 1 else -1) else a + (b - a).sign * i := by
  by_cases h : c
  · have hsign : (b - a).sign = if a < b then 1 else -1 := by
      have hne := hc h
      by_cases hab : a < b
      · rw [if_pos hab, Int.sign_eq_one_of_pos (by omega)]
      · rw [if_neg hab, Int.sign_eq_neg_one_of_neg (by omega)]
    simp only [if_pos h, ← hsign]
    push_cast
    ring
  · simp only [if_neg h, Nat.add_zero]

/-- The same step of the shorter or the longer side, said of the y coordinate. -/
theorem roundedShare_step_swap (w d k : Nat) (hn : 0 < max w d) :
    roundedShare (max w d) d (k + 1) = roundedShare (max w d) d k +
      if 2 * walkError w d (roundedShare (max w d) w k) (roundedShare (max w d) d k) ≤ (w : Int) then 1 else 0 := by
  have hiff (e : Int) : 2 * -e ≥ -(w : Int) ↔ 2 * e ≤ w := by omega
  have h := roundedShare_step d w k (by rwa [max_comm])
  simp only [max_comm d w, walkError_swap w d, hiff] at h
  exact h

variable (a b : Point) (k : Nat)

/-- A coordinate whose share grows has some way to go. -/
theorem ne_of_share_grows {n k : Nat} (u v : Int) (c : Prop) [Decidable c] (hk : k < n)
    (h : roundedShare n (v - u).natAbs (k + 1) = roundedShare n (v - u).natAbs k + if c then 1 else 0) :
    c → u ≠ v := by
  rintro hc rfl
  have hle := roundedShare_le (n := n) (u - u).natAbs (k + 1) (by omega) (by omega)
  rw [h, if_pos hc] at hle
  simp at hle

/-- The next position of the loop (R232). -/
theorem linePos_succ (hk : k < lineSteps a b) : linePos a b (k + 1) =
    ⟨if 2 * lineErr a b k ≥ -((b.y - a.y).natAbs : Int) then
        (linePos a b k).x + (if a.x < b.x then 1 else -1) else (linePos a b k).x,
      if 2 * lineErr a b k ≤ ((b.x - a.x).natAbs : Int) then
        (linePos a b k).y + (if a.y < b.y then 1 else -1) else (linePos a b k).y⟩ := by
  have hn : 0 < max (b.x - a.x).natAbs (b.y - a.y).natAbs := Nat.zero_lt_of_lt hk
  have hx := roundedShare_step _ _ k hn
  have hy := roundedShare_step_swap _ _ k hn
  refine Point.mk.injEq .. ▸ ⟨?_, ?_⟩
  · exact (congrArg (fun i : Nat => a.x + (b.x - a.x).sign * (i : Int)) hx).trans
      (coordinate_step a.x b.x _ _ (ne_of_share_grows a.x b.x _ hk hx))
  · exact (congrArg (fun i : Nat => a.y + (b.y - a.y).sign * (i : Int)) hy).trans
      (coordinate_step a.y b.y _ _ (ne_of_share_grows a.y b.y _ hk hy))

/-- The next error of the loop (R232). -/
theorem lineErr_succ (hk : k < lineSteps a b) : lineErr a b (k + 1) = lineErr a b k +
    (if 2 * lineErr a b k ≥ -((b.y - a.y).natAbs : Int) then -((b.y - a.y).natAbs : Int) else 0) +
    (if 2 * lineErr a b k ≤ ((b.x - a.x).natAbs : Int) then ((b.x - a.x).natAbs : Int) else 0) := by
  have hn : 0 < max (b.x - a.x).natAbs (b.y - a.y).natAbs := Nat.zero_lt_of_lt hk
  have hx := roundedShare_step _ _ k hn
  have hy := roundedShare_step_swap _ _ k hn
  exact (congrArg₂ (walkError (b.x - a.x).natAbs (b.y - a.y).natAbs) hx hy).trans (walkError_step ..)

theorem linePos_zero : linePos a b 0 = a := by
  simp [linePos, roundedShare_zero]

theorem linePos_steps : linePos a b (lineSteps a b) = b := by
  have hcoord (u v : Int) (h : (v - u).natAbs ≤ lineSteps a b) :
      u + (v - u).sign * (roundedShare (lineSteps a b) (v - u).natAbs (lineSteps a b) : Nat) = v := by
    rcases Nat.eq_zero_or_pos (lineSteps a b) with h0 | hn
    · have huv : u = v := by omega
      simp [huv]
    · rw [roundedShare_self _ hn, Int.sign_mul_natAbs]
      omega
  exact congrArg₂ Point.mk (hcoord a.x b.x (le_max_left _ _)) (hcoord a.y b.y (le_max_right _ _))

/-- A coordinate's position for the share of the whole side is one unit on at each step. -/
theorem sign_mul_injective {u v : Int} (h : u ≠ v) {i j : Nat}
    (he : u + (v - u).sign * (i : Int) = u + (v - u).sign * (j : Int)) : i = j := by
  have hne : (v - u).sign ≠ 0 := by rw [Ne, Int.sign_eq_zero_iff_zero]; omega
  exact Int.natCast_inj.1 (Int.eq_of_mul_eq_mul_left hne (by omega))

/-- The positions of a line are all different: on the longer side each is one unit on. -/
theorem linePos_injective {a b : Point} {i j : Nat} (hi : i ≤ lineSteps a b) (hj : j ≤ lineSteps a b)
    (h : linePos a b i = linePos a b j) : i = j := by
  have hcoord {u v : Int} (hlong : (v - u).natAbs = lineSteps a b)
      (he : u + (v - u).sign * (roundedShare (lineSteps a b) (v - u).natAbs i : Nat) =
        u + (v - u).sign * (roundedShare (lineSteps a b) (v - u).natAbs j : Nat)) : i = j := by
    rcases Nat.eq_zero_or_pos (lineSteps a b) with h0 | hn
    · omega
    · have hshare := sign_mul_injective (by omega) he
      rwa [hlong, roundedShare_major i hn, roundedShare_major j hn] at hshare
  rcases le_total (b.y - a.y).natAbs (b.x - a.x).natAbs with hle | hle
  · exact hcoord (max_eq_left hle).symm (congrArg Point.x h)
  · exact hcoord (max_eq_right hle).symm (congrArg Point.y h)

/-- The walk from position `k` on visits the positions from there to the end (R232). -/
theorem lineWalk_eq (m : Nat) (hk : k + m = lineSteps a b) :
    lineWalk b.x b.y (b.x - a.x).natAbs (-((b.y - a.y).natAbs : Int)) (if a.x < b.x then 1 else -1)
      (if a.y < b.y then 1 else -1) (m + 1) (linePos a b k).x (linePos a b k).y (lineErr a b k) =
    (List.range' k (m + 1)).map (linePos a b) := by
  induction m generalizing k with
  | zero =>
    obtain rfl : k = lineSteps a b := hk
    simp [lineWalk, linePos_steps]
  | succ m ih =>
    have hlt : k < lineSteps a b := by omega
    have hnot : ¬ ((linePos a b k).x = b.x ∧ (linePos a b k).y = b.y) := by
      rintro ⟨hx, hy⟩
      have hpos : linePos a b k = linePos a b (lineSteps a b) := by
        rw [linePos_steps]
        exact congrArg₂ Point.mk hx hy
      exact absurd (linePos_injective hlt.le le_rfl hpos) hlt.ne
    have hstep := ih (k + 1) (by omega)
    rw [linePos_succ a b k hlt, lineErr_succ a b k hlt] at hstep
    rw [lineWalk, if_neg hnot, List.range'_succ, List.map_cons, ← hstep]

theorem linePoints_eq : linePoints a b = (List.range (lineSteps a b + 1)).map (linePos a b) := by
  have h := lineWalk_eq a b 0 (lineSteps a b) (by omega)
  have herr : lineErr a b 0 = (b.x - a.x).natAbs + -((b.y - a.y).natAbs : Int) := by
    simp only [lineErr, roundedShare_zero, walkError]
    ring
  rw [linePos_zero, herr] at h
  rw [List.range_eq_range', ← h]
  rfl

theorem linePoints_getElem? {k : Nat} (hk : k ≤ lineSteps a b) : (linePoints a b)[k]? = some (linePos a b k) := by
  rw [linePoints_eq, List.getElem?_map, List.getElem?_range (by omega)]
  rfl

/-- Each coordinate of a step is at most one unit. -/
theorem linePos_step_le (hk : k < lineSteps a b) :
    ((linePos a b (k + 1)).x - (linePos a b k).x).natAbs ≤ 1 ∧
    ((linePos a b (k + 1)).y - (linePos a b k).y).natAbs ≤ 1 := by
  rw [linePos_succ a b k hk]
  dsimp only
  constructor <;> split_ifs <;> omega

/-- Settles O40: the walk's positions in closed form, from which each clause follows. -/
theorem lineIsConnectedAndExact : Obligations.LineIsConnectedAndExact := by
  intro a b n
  have hpoint {k : Nat} (hk : k ≤ n) := linePoints_getElem? a b hk
  refine ⟨?_, ?_, ?_, ?_, ?_, fun k hk => hpoint hk, lineErr a b, ?_, fun k p hk hp => ?_⟩
  · rw [linePoints_eq, List.length_map, List.length_range]
    rfl
  · rw [linePoints_eq]
    refine List.Nodup.map_on (fun i hi j hj h => ?_) List.nodup_range
    rw [List.mem_range] at hi hj
    exact linePos_injective (by omega) (by omega) h
  · rw [List.head?_eq_getElem?, hpoint (Nat.zero_le n), linePos_zero]
  · rw [List.getLast?_eq_getElem?, linePoints_eq, List.length_map, List.length_range, ← linePoints_eq]
    exact (hpoint le_rfl).trans (congrArg some (linePos_steps a b))
  · rw [linePoints_eq, List.isChain_map, List.isChain_range_succ]
    exact fun k hk => linePos_step_le a b k hk
  · simp only [lineErr, roundedShare_zero, walkError]
    ring
  · obtain rfl : linePos a b k = p := Option.some.inj ((hpoint hk.le).symm.trans hp)
    exact ⟨(hpoint hk).trans (congrArg some (linePos_succ a b k hk)), lineErr_succ a b k hk⟩

end line
/-! Edge walks (R236, R237). -/

section edge

variable (a b : Point)

/-- The value of an edge walk at scanline `i`. -/
def edgeValue (i : Nat) : Int :=
  a.x + (b.x - a.x).sign * (roundedShare (b.y - a.y).natAbs (b.x - a.x).natAbs i : Nat)

theorem edgeXs_eq : edgeXs a b = (List.range ((b.y - a.y).natAbs + 1)).map (edgeValue a b) := by
  by_cases hd : (b.y - a.y).natAbs = 0
  · simp [edgeXs, hd, edgeValue, roundedShare_zero]
  · simp only [edgeXs, if_neg hd]
    rfl

theorem edgeXs_length : (edgeXs a b).length = (b.y - a.y).natAbs + 1 := by
  rw [edgeXs_eq, List.length_map, List.length_range]

theorem edgeXs_getElem? {i : Nat} (hi : i ≤ (b.y - a.y).natAbs) : (edgeXs a b)[i]? = some (edgeValue a b i) := by
  rw [edgeXs_eq, List.getElem?_map, List.getElem?_range (by omega)]
  rfl

theorem edgeValue_zero : edgeValue a b 0 = a.x := by
  simp [edgeValue, roundedShare_zero]

theorem edgeValue_last (h : a.y ≠ b.y) : edgeValue a b (b.y - a.y).natAbs = b.x := by
  rw [edgeValue, roundedShare_self _ (by omega), Int.sign_mul_natAbs]
  omega

/-- Settles O41: the walk lists the rounded shares 0 to |Δy|, of which the last is the whole. -/
theorem edgeWalkHasItsEndpoints : Obligations.EdgeWalkHasItsEndpoints := by
  intro a b
  refine ⟨edgeXs_length a b, ?_, ?_⟩
  · rw [List.head?_eq_getElem?, edgeXs_getElem? a b (Nat.zero_le _), edgeValue_zero]
  · rw [List.getLast?_eq_getElem?, edgeXs_length, Nat.add_sub_cancel, edgeXs_getElem? a b le_rfl]
    by_cases h : a.y = b.y
    · simp [h, edgeValue_zero]
    · rw [if_neg h, edgeValue_last a b h]

/-! The error accumulator (R237): its error is the remainder of which the walk's value takes the quotient. -/

/-- The inner loop takes the doubled y delta off until it no longer goes: a division. -/
theorem accumulate_eq (d2 fuel e off : Nat) (hd : 0 < d2) (hfuel : e / d2 ≤ fuel) :
    accumulate d2 fuel (e, off) = (e % d2, off + e / d2) := by
  induction fuel generalizing e off with
  | zero =>
    have hlt : e < d2 := by
      by_contra h
      have := Nat.div_pos (Nat.le_of_not_lt h) hd
      omega
    simp [accumulate, Nat.mod_eq_of_lt hlt, Nat.div_eq_of_lt hlt]
  | succ fuel ih =>
    by_cases h : d2 ≤ e
    · have hdiv : e / d2 = (e - d2) / d2 + 1 := Nat.div_eq_sub_div hd h
      rw [accumulate, if_pos h, ih _ _ (by omega), ← Nat.mod_eq_sub_mod h, hdiv]
      congr 1
      omega
    · rw [accumulate, if_neg h, Nat.mod_eq_of_lt (by omega), Nat.div_eq_of_lt (by omega)]
      rfl

/-- One scanline further: the accumulator's error and offset stay the remainder and the rounded share. -/
theorem accumulate_share (w d i : Nat) (hd : 0 < d) :
    accumulate (2 * d) (2 * w + 1) ((2 * i * w + d) % (2 * d) + 2 * w, roundedShare d w i) =
      ((2 * (i + 1) * w + d) % (2 * d), roundedShare d w (i + 1)) := by
  have hnext : 2 * (i + 1) * w + d =
      2 * d * ((2 * i * w + d) / (2 * d)) + ((2 * i * w + d) % (2 * d) + 2 * w) := by
    rw [← Nat.add_assoc, Nat.div_add_mod]
    ring
  have hfuel : ((2 * i * w + d) % (2 * d) + 2 * w) / (2 * d) ≤ 2 * w + 1 := by
    have hmod := Nat.mod_lt (2 * i * w + d) (show 0 < 2 * d by omega)
    exact Nat.div_le_of_le_mul (by nlinarith)
  rw [accumulate_eq _ _ _ _ (by omega) hfuel, hnext, Nat.mul_add_mod, roundedShare, roundedShare, hnext,
    Nat.mul_add_div (by omega)]

theorem accumulatorXs_eq (x s : Int) (w d m i : Nat) (hd : 0 < d) :
    accumulatorXs x s w d m ((2 * i * w + d) % (2 * d)) (roundedShare d w i) =
      (List.range' i (m + 1)).map fun j => x + s * (roundedShare d w j : Nat) := by
  induction m generalizing i with
  | zero => rfl
  | succ m ih =>
    rw [accumulatorXs, accumulate_share w d i hd, ih, List.range'_succ (s := i) (n := m + 1), List.map_cons]

/-- Settles O42: both forms list the rounded shares, in order. -/
theorem edgeWalkIsTheAccumulator : Obligations.EdgeWalkIsTheAccumulator := by
  intro a b h
  have hd : 0 < (b.y - a.y).natAbs := by omega
  have hzero :=
    accumulatorXs_eq a.x (b.x - a.x).sign (b.x - a.x).natAbs (b.y - a.y).natAbs (b.y - a.y).natAbs 0 hd
  have hmod : (2 * 0 * (b.x - a.x).natAbs + (b.y - a.y).natAbs) % (2 * (b.y - a.y).natAbs) = (b.y - a.y).natAbs := by
    rw [Nat.mul_zero, Nat.zero_mul, Nat.zero_add, Nat.mod_eq_of_lt (by omega)]
  rw [hmod, roundedShare_zero] at hzero
  rw [hzero, edgeXs_eq, List.range_eq_range']
  rfl

end edge
end Sys2Proof.Machine
end

section
/-! Filled triangles (R238): the sort of the vertices, and the spans of the scanlines. -/

namespace Sys2Proof.Machine

/-! The sort by y, then x (D15). -/

theorem pointLe_iff (p q : Point) : pointLe p q = true ↔ p.y < q.y ∨ p.y = q.y ∧ p.x ≤ q.x := by
  simp [pointLe]

theorem pointLe_total (p q : Point) : pointLe p q = true ∨ pointLe q p = true := by
  simp only [pointLe_iff]
  omega

theorem pointLe_trans {p q r : Point} (h : pointLe p q = true) (h' : pointLe q r = true) : pointLe p r = true := by
  simp only [pointLe_iff] at *
  omega

theorem pointLe_antisymm {p q : Point} (h : pointLe p q = true) (h' : pointLe q p = true) : p = q := by
  rw [pointLe_iff] at h h'
  have hx : p.x = q.x := by omega
  have hy : p.y = q.y := by omega
  exact congrArg₂ Point.mk hx hy

theorem pointLe_of_not {p q : Point} (h : ¬ pointLe p q = true) : pointLe q p = true :=
  (pointLe_total p q).resolve_left h

/-- The third point put into its place among two in order. -/
def insert3 (a b r : Point) : Point × Point × Point :=
  if pointLe b r then (a, b, r) else if pointLe a r then (a, r, b) else (r, a, b)

theorem sort3_eq (p q r : Point) : sort3 p q r = if pointLe p q then insert3 p q r else insert3 q p r := by
  by_cases h : pointLe p q = true <;> simp [sort3, insert3, h]

theorem insert3_spec {a b r t m b' : Point} (hab : pointLe a b = true) (h : insert3 a b r = (t, m, b')) :
    [t, m, b'].Perm [a, b, r] ∧ pointLe t m = true ∧ pointLe m b' = true := by
  unfold insert3 at h
  split_ifs at h with hbr har <;> cases h
  · exact ⟨.refl _, hab, hbr⟩
  · exact ⟨.cons a (.swap b r []), har, pointLe_of_not hbr⟩
  · exact ⟨(List.Perm.swap a r [b]).trans (.cons a (.swap b r [])), pointLe_of_not har, hab⟩

/-- `sort3` gives the three points in order. -/
theorem sort3_spec {p q r t m b : Point} (h : sort3 p q r = (t, m, b)) :
    [t, m, b].Perm [p, q, r] ∧ pointLe t m = true ∧ pointLe m b = true := by
  rw [sort3_eq] at h
  split at h
  next hpq => exact insert3_spec hpq h
  next hpq =>
    obtain ⟨hperm, hord⟩ := insert3_spec (pointLe_of_not hpq) h
    exact ⟨hperm.trans (.swap p q [r]), hord⟩

/-- Points in order are sorted already. -/
theorem sort3_of_sorted {t m b : Point} (htm : pointLe t m = true) (hmb : pointLe m b = true) :
    sort3 t m b = (t, m, b) := by
  simp [sort3, htm, hmb]

theorem sort3_perm {p q r p' q' r' : Point} (h : [p, q, r].Perm [p', q', r']) : sort3 p q r = sort3 p' q' r' := by
  obtain ⟨⟨t, m, b⟩, hs⟩ : ∃ v, sort3 p q r = v := ⟨_, rfl⟩
  obtain ⟨⟨t', m', b'⟩, hs'⟩ : ∃ v, sort3 p' q' r' = v := ⟨_, rfl⟩
  obtain ⟨hperm, htm, hmb⟩ := sort3_spec hs
  obtain ⟨hperm', htm', hmb'⟩ := sort3_spec hs'
  have hsorted {t m b : Point} (htm : pointLe t m = true) (hmb : pointLe m b = true) :
      [t, m, b].Pairwise fun u v => pointLe u v = true := by
    simp [htm, hmb, pointLe_trans htm hmb]
  have heq := (hperm.trans (h.trans hperm'.symm)).eq_of_pairwise (fun _ _ _ _ => pointLe_antisymm)
    (hsorted htm hmb) (hsorted htm' hmb')
  simp_all

theorem trianglePoints_of_perm {p q r p' q' r' : Point} (h : [p, q, r].Perm [p', q', r']) :
    trianglePoints p q r = trianglePoints p' q' r' := by
  simp only [trianglePoints, sort3_perm h]

/-- Settles O43: only the sorted vertices count. -/
theorem triangleIgnoresVertexOrder : Obligations.TriangleIgnoresVertexOrder :=
  fun p q r => ⟨trianglePoints_of_perm (.swap p q [r]), trianglePoints_of_perm (.cons p (.swap q r []))⟩

/-! Spans. -/

theorem mem_hlinePoints (xl xr y : Int) (p : Point) :
    p ∈ hlinePoints xl xr y ↔ p.y = y ∧ xl ≤ p.x ∧ p.x ≤ xr := by
  obtain ⟨px, py⟩ := p
  simp only [hlinePoints, List.mem_map, List.mem_range, Point.mk.injEq]
  constructor
  · rintro ⟨i, hi, rfl, rfl⟩
    omega
  · rintro ⟨rfl, hl, hr⟩
    exact ⟨(px - xl).toNat, by omega, by omega, rfl⟩

/-- Scanline `i` of a list of spans holds the points between the ends of span `i`. -/
theorem mem_spanPoints (y : Int) (spans : List (Int × Int)) (p : Point) : p ∈ spanPoints y spans ↔
    ∃ (i : Nat) (e : Int × Int), spans[i]? = some e ∧ p.y = y + i ∧ min e.1 e.2 ≤ p.x ∧ p.x ≤ max e.1 e.2 := by
  induction spans generalizing y with
  | nil => simp [spanPoints]
  | cons e rest ih =>
    obtain ⟨l, r⟩ := e
    rw [spanPoints, List.mem_append, mem_hlinePoints, ih]
    constructor
    · rintro (⟨hy, hx⟩ | ⟨i, e, he, hy, hx⟩)
      · exact ⟨0, (l, r), rfl, by omega, hx⟩
      · exact ⟨i + 1, e, he, by omega, hx⟩
    · rintro ⟨i, e, he, hy, hx⟩
      cases i with
      | zero => cases he; exact .inl ⟨by omega, hx⟩
      | succ i => exact .inr ⟨i, e, he, by omega, hx⟩

/-! The triangle of three vertices in order. -/

section sorted

/-- The value of the two short edges at scanline `i`: the second edge has the middle vertex's scanline (D15). -/
def sideValue (t m b : Point) (i : Nat) : Int :=
  if i < (m.y - t.y).natAbs then edgeValue t m i else edgeValue m b (i - (m.y - t.y).natAbs)

theorem dropLast_map_range {α : Type} (f : Nat → α) (n : Nat) :
    ((List.range (n + 1)).map f).dropLast = (List.range n).map f := by
  rw [List.range_succ, List.map_append, List.map_singleton, List.dropLast_concat]

variable {t m b : Point} (htm : pointLe t m = true) (hmb : pointLe m b = true)

include htm hmb in
theorem sides_eq : (edgeXs t m).dropLast ++ edgeXs m b =
    (List.range ((b.y - t.y).natAbs + 1)).map (sideValue t m b) := by
  rw [pointLe_iff] at htm hmb
  have hrows : (b.y - t.y).natAbs + 1 = (m.y - t.y).natAbs + ((b.y - m.y).natAbs + 1) := by omega
  rw [edgeXs_eq, edgeXs_eq, dropLast_map_range, hrows, List.range_add (n := (m.y - t.y).natAbs), List.map_append,
    List.map_map]
  congr 1
  · refine List.map_congr_left fun i hi => ?_
    exact (if_pos (List.mem_range.1 hi)).symm
  · refine List.map_congr_left fun i _ => ?_
    rw [Function.comp_apply, sideValue, if_neg (by omega), Nat.add_sub_cancel_left]

include htm hmb in
theorem mem_trianglePoints_flat (hflat : t.y = b.y) (p : Point) : p ∈ trianglePoints t m b ↔
    p.y = t.y ∧ min t.x (min m.x b.x) ≤ p.x ∧ p.x ≤ max t.x (max m.x b.x) := by
  simp only [trianglePoints, sort3_of_sorted htm hmb, if_pos hflat]
  exact mem_hlinePoints ..

include htm hmb in
theorem mem_trianglePoints_tall (htall : t.y < b.y) (p : Point) : p ∈ trianglePoints t m b ↔
    ∃ i ≤ (b.y - t.y).natAbs, p.y = t.y + i ∧ min (edgeValue t b i) (sideValue t m b i) ≤ p.x ∧
      p.x ≤ max (edgeValue t b i) (sideValue t m b i) := by
  simp only [trianglePoints, sort3_of_sorted htm hmb, if_neg htall.ne]
  rw [sides_eq htm hmb, edgeXs_eq, List.zip_map', mem_spanPoints]
  simp only [List.getElem?_map, Option.map_eq_some_iff, List.getElem?_eq_some_iff]
  constructor
  · rintro ⟨i, e, ⟨j, ⟨hi, rfl⟩, rfl⟩, hy, hx⟩
    rw [List.length_range] at hi
    rw [List.getElem_range] at hx
    exact ⟨i, by omega, hy, hx⟩
  · rintro ⟨i, hi, hy, hx⟩
    exact ⟨i, _, ⟨i, ⟨by rw [List.length_range]; omega, List.getElem_range _⟩, rfl⟩, hy, hx⟩

include htm hmb in
/-- A tall triangle on its scanline `i`. -/
theorem mem_trianglePoints_row (htall : t.y < b.y) (x : Int) {i : Nat} (hi : i ≤ (b.y - t.y).natAbs) :
    (⟨x, t.y + i⟩ : Point) ∈ trianglePoints t m b ↔
      min (edgeValue t b i) (sideValue t m b i) ≤ x ∧ x ≤ max (edgeValue t b i) (sideValue t m b i) := by
  rw [mem_trianglePoints_tall htm hmb htall]
  constructor
  · rintro ⟨j, -, hy, hx⟩
    obtain rfl : i = j := by dsimp only at hy; omega
    exact hx
  · exact fun hx => ⟨i, hi, rfl, hx⟩

include htm hmb in
theorem trianglePoints_rows (p : Point) (hp : p ∈ trianglePoints t m b) : t.y ≤ p.y ∧ p.y ≤ b.y := by
  obtain hflat | htall : t.y = b.y ∨ t.y < b.y := by
    rw [pointLe_iff] at htm hmb
    omega
  · rw [mem_trianglePoints_flat htm hmb hflat] at hp
    omega
  · obtain ⟨i, hi, hy, -⟩ := (mem_trianglePoints_tall htm hmb htall p).1 hp
    omega

include htm hmb in
theorem trianglePoints_span (y : Int) (hty : t.y ≤ y) (hyb : y ≤ b.y) :
    ∃ xl xr : Int, xl ≤ xr ∧ ∀ x : Int, (⟨x, y⟩ : Point) ∈ trianglePoints t m b ↔ xl ≤ x ∧ x ≤ xr := by
  obtain hflat | htall : t.y = b.y ∨ t.y < b.y := by omega
  · refine ⟨_, _, ?_, fun x => (mem_trianglePoints_flat htm hmb hflat _).trans (and_iff_right ?_)⟩
    · exact (min_le_left _ _).trans (le_max_left _ _)
    · show y = t.y
      omega
  · obtain ⟨i, rfl⟩ := Int.le.dest hty
    exact ⟨_, _, min_le_max, fun x => mem_trianglePoints_row htm hmb htall x (by omega)⟩

include htm hmb in
/-- The long edge ends in the top and the bottom vertex, and the second short edge begins in the middle one. -/
theorem trianglePoints_vertices (p : Point) (hp : p ∈ [t, m, b]) : p ∈ trianglePoints t m b := by
  have htm' := (pointLe_iff t m).1 htm
  have hmb' := (pointLe_iff m b).1 hmb
  obtain hflat | htall : t.y = b.y ∨ t.y < b.y := by omega
  · rw [mem_trianglePoints_flat htm hmb hflat]
    simp only [List.mem_cons, List.not_mem_nil, or_false] at hp
    obtain rfl | rfl | rfl := hp <;> omega
  · rw [mem_trianglePoints_tall htm hmb htall]
    simp only [List.mem_cons, List.not_mem_nil, or_false] at hp
    obtain rfl | rfl | rfl := hp
    · exact ⟨0, by omega, by omega, by simp [edgeValue_zero]⟩
    · refine ⟨(p.y - t.y).natAbs, by omega, by omega, ?_⟩
      simp [sideValue, edgeValue_zero]
    · refine ⟨(p.y - t.y).natAbs, le_rfl, by omega, ?_⟩
      simp [edgeValue_last t p htall.ne]

end sorted

/-- Settles O44: a triangle is that of its sorted vertices, of which each clause is said above. -/
theorem triangleHasOneSpanPerScanline : Obligations.TriangleHasOneSpanPerScanline := by
  refine ⟨fun p q r => ?_, fun t m b htm hmb => ?_⟩
  · obtain ⟨⟨t, m, b⟩, hs⟩ : ∃ v, sort3 p q r = v := ⟨_, rfl⟩
    obtain ⟨hperm, htm, hmb⟩ := sort3_spec hs
    have hvertex (v : Point) (hv : v ∈ [p, q, r]) := trianglePoints_vertices htm hmb v (hperm.mem_iff.2 hv)
    have hrow (v : Point) (hv : v ∈ [p, q, r]) := trianglePoints_rows htm hmb v (hvertex v hv)
    have htop : t ∈ [p, q, r] := hperm.mem_iff.1 (by simp)
    have hbot : b ∈ [p, q, r] := hperm.mem_iff.1 (by simp)
    simp only [List.mem_cons, List.not_mem_nil, or_false] at htop hbot
    have hp := hrow p (by simp)
    have hq := hrow q (by simp)
    have hr := hrow r (by simp)
    have hmin : min p.y (min q.y r.y) = t.y := by
      have hcases : t.y = p.y ∨ t.y = q.y ∨ t.y = r.y := htop.imp (congrArg _) (Or.imp (congrArg _) (congrArg _))
      omega
    have hmax : max p.y (max q.y r.y) = b.y := by
      have hcases : b.y = p.y ∨ b.y = q.y ∨ b.y = r.y := hbot.imp (congrArg _) (Or.imp (congrArg _) (congrArg _))
      omega
    rw [← trianglePoints_of_perm hperm, hmin, hmax]
    exact ⟨trianglePoints_rows htm hmb, trianglePoints_span htm hmb, hvertex p (by simp), hvertex q (by simp),
      hvertex r (by simp)⟩
  · rw [← pointLe_iff] at htm hmb
    refine ⟨mem_trianglePoints_flat htm hmb, fun htall y hty hyb => ?_⟩
    obtain ⟨i, rfl⟩ := Int.le.dest hty
    have htm' := (pointLe_iff t m).1 htm
    have hi : i ≤ (b.y - t.y).natAbs := by omega
    have hrow : (t.y + i - t.y).toNat = i := by omega
    refine ⟨edgeValue t b i, sideValue t m b i, ?_, ?_, fun x => mem_trianglePoints_row htm hmb htall x hi⟩
    · rw [hrow, edgeXs_getElem? t b hi]
    · by_cases hm : t.y + i < m.y
      · rw [if_pos hm, hrow, edgeXs_getElem? t m (by omega), sideValue, if_pos (by omega)]
      · have hrow' : (t.y + i - m.y).toNat = i - (m.y - t.y).natAbs := by omega
        rw [if_neg hm, hrow', edgeXs_getElem? m b (by omega), sideValue, if_neg (by omega)]

end Sys2Proof.Machine
end

section
/-! Circles (R242–R245): each vertex's coordinates are the exact roundings, though found by integer tests. -/

namespace Sys2Proof.Machine

open Real (sqrt cos sin pi)

/-! Comparisons with multiples of square roots, in terms of squares. -/

section squares

variable (a : Int) (n : Nat)

theorem natCast_mul_sqrt (y : ℝ) : n * sqrt y = sqrt ((n : ℝ) ^ 2 * y) := by
  rw [Real.sqrt_mul (sq_nonneg _), Real.sqrt_sq n.cast_nonneg]

theorem le_mul_sqrt_iff (y : ℝ) : (a : ℝ) ≤ n * sqrt y ↔ a ≤ 0 ∨ (a : ℝ) ^ 2 ≤ n ^ 2 * y := by
  rw [natCast_mul_sqrt, ← Int.cast_nonpos (R := ℝ)]
  rcases le_or_gt (a : ℝ) 0 with ha | ha
  · exact ⟨fun _ => .inl ha, fun _ => ha.trans (Real.sqrt_nonneg _)⟩
  · rw [Real.le_sqrt' ha, or_iff_right ha.not_ge]

theorem le_neg_mul_sqrt_iff (y : ℝ) : (a : ℝ) ≤ -(n * sqrt y) ↔ a ≤ 0 ∧ n ^ 2 * y ≤ (a : ℝ) ^ 2 := by
  rw [natCast_mul_sqrt, le_neg, ← Int.cast_nonpos (R := ℝ)]
  constructor
  · intro h
    have ha : 0 ≤ -(a : ℝ) := (Real.sqrt_nonneg _).trans h
    exact ⟨by linarith, by simpa using (Real.sqrt_le_left ha).1 h⟩
  · rintro ⟨ha, h⟩
    exact (Real.sqrt_le_left (by linarith)).2 (by simpa using h)

theorem le_mul_sqrt_two_iff : (a : ℝ) ≤ n * sqrt 2 ↔ a ≤ 0 ∨ a * a ≤ 2 * (n * n) := by
  have hcast : (a : ℝ) ^ 2 ≤ n ^ 2 * 2 ↔ a * a ≤ 2 * (n * n) := by
    rw [← Int.cast_le (R := ℝ)]
    push_cast
    constructor <;> intro h <;> linarith
  rw [le_mul_sqrt_iff, hcast]

theorem le_neg_mul_sqrt_two_iff : (a : ℝ) ≤ -(n * sqrt 2) ↔ a ≤ 0 ∧ 2 * (n * n) ≤ a * a := by
  have hcast : (n : ℝ) ^ 2 * 2 ≤ a ^ 2 ↔ 2 * (n * n) ≤ a * a := by
    rw [← Int.cast_le (R := ℝ)]
    push_cast
    constructor <;> intro h <;> linarith
  rw [le_neg_mul_sqrt_iff, hcast]

/-- n√(2 + √2), by squaring twice. -/
theorem le_mul_sqrt_two_add_iff : (a : ℝ) ≤ n * sqrt (2 + sqrt 2) ↔
    a ≤ 0 ∨ a * a - 2 * (n * n) ≤ 0 ∨
      (a * a - 2 * (n * n)) * (a * a - 2 * (n * n)) ≤ 2 * (n * n) * (n * n) := by
  have hsq : (a : ℝ) ^ 2 ≤ n ^ 2 * (2 + sqrt 2) ↔
      ((a * a - 2 * (n * n) : Int) : ℝ) ≤ (n * n : Nat) * sqrt 2 := by
    push_cast
    constructor <;> intro h <;> linarith
  rw [le_mul_sqrt_iff, hsq, le_mul_sqrt_two_iff, Nat.cast_mul, mul_assoc 2 ((n : Int) * n)]

/-- n√(2 − √2), by squaring twice. -/
theorem le_mul_sqrt_two_sub_iff : (a : ℝ) ≤ n * sqrt (2 - sqrt 2) ↔
    a ≤ 0 ∨ a * a - 2 * (n * n) ≤ 0 ∧
      2 * (n * n) * (n * n) ≤ (a * a - 2 * (n * n)) * (a * a - 2 * (n * n)) := by
  have hsq : (a : ℝ) ^ 2 ≤ n ^ 2 * (2 - sqrt 2) ↔
      ((a * a - 2 * (n * n) : Int) : ℝ) ≤ -((n * n : Nat) * sqrt 2) := by
    push_cast
    constructor <;> intro h <;> linarith
  rw [le_mul_sqrt_iff, hsq, le_neg_mul_sqrt_two_iff, Nat.cast_mul, mul_assoc 2 ((n : Int) * n)]

theorem le_neg_mul_sqrt_two_sub_iff : (a : ℝ) ≤ -(n * sqrt (2 - sqrt 2)) ↔
    a ≤ 0 ∧ (0 ≤ a * a - 2 * (n * n) ∨
      (a * a - 2 * (n * n)) * (a * a - 2 * (n * n)) ≤ 2 * (n * n) * (n * n)) := by
  have hsq : n ^ 2 * (2 - sqrt 2) ≤ (a : ℝ) ^ 2 ↔
      ((-(a * a - 2 * (n * n)) : Int) : ℝ) ≤ (n * n : Nat) * sqrt 2 := by
    push_cast
    constructor <;> intro h <;> linarith
  rw [le_neg_mul_sqrt_iff, hsq, le_mul_sqrt_two_iff, neg_mul_neg, neg_nonpos, Nat.cast_mul,
    mul_assoc 2 ((n : Int) * n)]

theorem le_neg_mul_sqrt_two_add_iff : (a : ℝ) ≤ -(n * sqrt (2 + sqrt 2)) ↔
    a ≤ 0 ∧ 0 ≤ a * a - 2 * (n * n) ∧
      2 * (n * n) * (n * n) ≤ (a * a - 2 * (n * n)) * (a * a - 2 * (n * n)) := by
  have hsq : n ^ 2 * (2 + sqrt 2) ≤ (a : ℝ) ^ 2 ↔
      ((-(a * a - 2 * (n * n)) : Int) : ℝ) ≤ -((n * n : Nat) * sqrt 2) := by
    push_cast
    constructor <;> intro h <;> linarith
  rw [le_neg_mul_sqrt_iff, hsq, le_neg_mul_sqrt_two_iff, neg_mul_neg, neg_nonpos, Nat.cast_mul,
    mul_assoc 2 ((n : Int) * n)]

end squares

/-! The doubled cosines of the multiples of π/8 (R244). -/

section cosines

theorem cos_sub_eighths (k l : Nat) (h : k + l = 8) : cos (k * (pi / 8)) = -cos (l * (pi / 8)) := by
  have hk : (k : ℝ) = 8 - l := by
    rw [eq_sub_iff_add_eq]
    exact_mod_cast h
  rw [← Real.cos_pi_sub, hk]
  congr 1
  ring

theorem two_mul_cos_one : 2 * cos (1 * (pi / 8)) = sqrt (2 + sqrt 2) := by
  rw [one_mul, Real.cos_pi_div_eight]
  ring

theorem two_mul_cos_two : 2 * cos (2 * (pi / 8)) = sqrt 2 := by
  have h : 2 * (pi / 8) = pi / 4 := by ring
  rw [h, Real.cos_pi_div_four]
  ring

theorem two_mul_cos_three : 2 * cos (3 * (pi / 8)) = sqrt (2 - sqrt 2) := by
  have h : 3 * (pi / 8) = pi / 2 - pi / 8 := by ring
  rw [h, Real.cos_pi_div_two_sub, Real.sin_pi_div_eight]
  ring

end cosines

/-- The integer that the tests compare: N ≤ √n · cos(kπ/16) + 1/2 says that it is at most 2n·cos(kπ/8). -/
def squareExcess (n N : Nat) : Int := (2 * N - 1) * (2 * N - 1) - 2 * n

theorem neg_two_mul_lt_squareExcess (n N : Nat) : -(2 * n : Int) < squareExcess n N := by
  have hodd : (2 * N - 1 : Int) ≠ 0 := by omega
  have hpos : 0 < (2 * N - 1 : Int) * (2 * N - 1) := mul_self_pos.2 hodd
  unfold squareExcess
  omega

/-- `roundsUpTo` compares with the doubled cosine's own radicals. -/
theorem roundsUpTo_iff (n k N : Nat) (hk : k ≤ 8) :
    roundsUpTo n k N = true ↔ (squareExcess n N : ℝ) ≤ n * (2 * cos (k * (pi / 8))) := by
  have hback (l : Nat) (h : k + l = 8) : 2 * cos (k * (pi / 8)) = -(2 * cos (l * (pi / 8))) := by
    rw [cos_sub_eighths k l h]
    ring
  interval_cases k
  all_goals
    simp only [roundsUpTo, Bool.or_eq_true, Bool.and_eq_true, decide_eq_true_eq, or_assoc, and_assoc]
  · -- k = 0
    have hcast : (squareExcess n N : ℝ) ≤ n * 2 ↔ squareExcess n N ≤ 2 * n := by
      rw [← Int.cast_le (R := ℝ), mul_comm]
      push_cast
      rfl
    rw [Nat.cast_zero, zero_mul, Real.cos_zero, mul_one, hcast]
    rfl
  · -- k = 1
    rw [Nat.cast_one, two_mul_cos_one, le_mul_sqrt_two_add_iff]
    rfl
  · -- k = 2
    rw [Nat.cast_ofNat, two_mul_cos_two, le_mul_sqrt_two_iff]
    rfl
  · -- k = 3
    rw [Nat.cast_ofNat, two_mul_cos_three, le_mul_sqrt_two_sub_iff]
    rfl
  · -- k = 4
    have hquarter : ((4 : Nat) : ℝ) * (pi / 8) = pi / 2 := by push_cast; ring
    rw [hquarter, Real.cos_pi_div_two, mul_zero, mul_zero, Int.cast_nonpos]
    rfl
  · -- k = 5
    rw [hback 3 rfl, Nat.cast_ofNat, two_mul_cos_three, mul_neg, le_neg_mul_sqrt_two_sub_iff]
    rfl
  · -- k = 6
    rw [hback 2 rfl, Nat.cast_ofNat, two_mul_cos_two, mul_neg, le_neg_mul_sqrt_two_iff]
    rfl
  · -- k = 7
    rw [hback 1 rfl, Nat.cast_one, two_mul_cos_one, mul_neg, le_neg_mul_sqrt_two_add_iff]
    rfl
  · -- k = 8
    have hlt : -(n * 2 : ℝ) < squareExcess n N := by
      rw [mul_comm]
      exact_mod_cast neg_two_mul_lt_squareExcess n N
    rw [hback 0 rfl, Nat.cast_zero, zero_mul, Real.cos_zero, mul_one, mul_neg]
    exact iff_of_false (by simp) hlt.not_ge

/-- The cosines of the first quarter turn. -/
theorem cos_sixteenths_nonneg (k : Nat) (hk : k ≤ 8) : 0 ≤ cos (k * (pi / 16)) := by
  have hk' : (k : ℝ) ≤ 8 := by exact_mod_cast hk
  have hlow : 0 ≤ (k : ℝ) * (pi / 16) := by positivity
  exact Real.cos_nonneg_of_neg_pi_div_two_le_of_le (by linarith [Real.pi_pos]) (by nlinarith [Real.pi_pos])

/-- The test decides the comparison it stands for (log entry 14). -/
theorem roundsUpTo_iff_le (n k N : Nat) (hk : k ≤ 8) (hN : 1 ≤ N) :
    roundsUpTo n k N = true ↔ (N : ℝ) ≤ sqrt n * cos (k * (pi / 16)) + 1 / 2 := by
  have hcos := cos_sixteenths_nonneg k hk
  have hN' : (1 : ℝ) ≤ N := by exact_mod_cast hN
  have hdouble : cos (k * (pi / 8)) = 2 * cos (k * (pi / 16)) ^ 2 - 1 := by
    rw [← Real.cos_two_mul]
    congr 1
    ring
  have hroot : sqrt n ^ 2 = n := Real.sq_sqrt n.cast_nonneg
  rw [roundsUpTo_iff n k N hk, hdouble]
  have hsquare : (squareExcess n N : ℝ) ≤ n * (2 * (2 * cos (k * (pi / 16)) ^ 2 - 1)) ↔
      (2 * N - 1 : ℝ) ^ 2 ≤ (2 * (sqrt n * cos (k * (pi / 16)))) ^ 2 := by
    rw [mul_pow, mul_pow, hroot]
    unfold squareExcess
    push_cast
    constructor <;> intro h <;> linarith
  rw [hsquare, sq_le_sq₀ (by linarith) (by positivity)]
  constructor <;> intro h <;> linarith

/-! The search for the largest N. -/

/-- The search ends at `acc` or at a number the test accepts, and the next number is not accepted. -/
theorem largest_spec (test : Nat → Bool) (bits acc : Nat) (hacc : acc = 0 ∨ test acc = true)
    (htop : test (acc + 2 ^ bits) = false) :
    (largest test bits acc = 0 ∨ test (largest test bits acc) = true) ∧
    test (largest test bits acc + 1) = false := by
  induction bits generalizing acc with
  | zero => exact ⟨hacc, htop⟩
  | succ bits ih =>
    unfold largest
    by_cases h : test (acc + 2 ^ bits) = true
    · rw [if_pos h]
      exact ih _ (.inr h) (by rw [Nat.add_assoc, ← Nat.two_mul, ← Nat.pow_succ']; exact htop)
    · rw [if_neg h]
      exact ih _ hacc (by simpa using h)

theorem sqrt_natCast_le (n : Nat) : sqrt n ≤ n :=
  Real.sqrt_le_iff.2 ⟨n.cast_nonneg, by exact_mod_cast Nat.le_self_pow two_ne_zero n⟩

/-- The search of R244's first nine cosines starts above the radius. -/
theorem roundsUpTo_top (n k : Nat) (hk : k ≤ 8) : roundsUpTo n k (2 ^ (n.log2 + 1)) = false := by
  have hlt : n + 1 ≤ 2 ^ (n.log2 + 1) := Nat.lt_log2_self
  have hroot : sqrt n * cos (k * (pi / 16)) ≤ sqrt n :=
    mul_le_of_le_one_right (Real.sqrt_nonneg _) (Real.cos_le_one _)
  have hcast : (n + 1 : ℝ) ≤ (2 ^ (n.log2 + 1) : Nat) := by exact_mod_cast hlt
  rw [← Bool.not_eq_true, roundsUpTo_iff_le n k _ hk (by omega)]
  linarith [sqrt_natCast_le n]

theorem roundedCos_eq (n k : Nat) (hk : k ≤ 8) :
    (roundedCos n k : Int) = ⌊sqrt n * cos (k * (pi / 16)) + 1 / 2⌋ := by
  obtain ⟨hlow, hhigh⟩ := largest_spec (roundsUpTo n k) (n.log2 + 1) 0 (.inl rfl)
    (by rw [Nat.zero_add]; exact roundsUpTo_top n k hk)
  have hpos := mul_nonneg (Real.sqrt_nonneg n) (cos_sixteenths_nonneg k hk)
  rw [← Bool.not_eq_true, roundsUpTo_iff_le n k _ hk (by omega), not_le] at hhigh
  refine (Int.floor_eq_iff.2 ⟨?_, by exact_mod_cast hhigh⟩).symm
  show ((roundedCos n k : Nat) : ℝ) ≤ _
  rcases Nat.eq_zero_or_pos (roundedCos n k) with h0 | h1
  · rw [h0, Nat.cast_zero]
    linarith
  · exact (roundsUpTo_iff_le n k _ hk h1).1 (hlow.resolve_left (by show roundedCos n k ≠ 0; omega))

/-! Rounding half away from zero (R242). -/

/-- The nearest integer, a half away from zero. -/
noncomputable def roundHalfAway (u : ℝ) : Int := (SignType.sign u : Int) * ⌊|u| + 1 / 2⌋

theorem roundHalfAway_of_nonneg {u : ℝ} (h : 0 ≤ u) : roundHalfAway u = ⌊u + 1 / 2⌋ := by
  rcases h.eq_or_lt with rfl | hpos
  · norm_num [roundHalfAway]
  · rw [roundHalfAway, sign_pos hpos, abs_of_pos hpos, SignType.coe_one, one_mul]

theorem roundHalfAway_neg (u : ℝ) : roundHalfAway (-u) = -roundHalfAway u := by
  rw [roundHalfAway, roundHalfAway, Left.sign_neg, abs_neg, SignType.coe_neg, neg_mul]

theorem roundedCos_eq_roundHalfAway (n k : Nat) (hk : k ≤ 8) :
    (roundedCos n k : Int) = roundHalfAway (sqrt n * cos (k * (pi / 16))) := by
  rw [roundedCos_eq n k hk,
    roundHalfAway_of_nonneg (mul_nonneg (Real.sqrt_nonneg n) (cos_sixteenths_nonneg k hk))]

/-- The symmetries of R244. -/
theorem cosOffset_eq (n k : Nat) (hk : k < 32) :
    cosOffset n k = roundHalfAway (sqrt n * cos (2 * pi * k / 32)) := by
  unfold cosOffset
  split_ifs with h8 h16 h24
  · have hangle : 2 * pi * k / 32 = k * (pi / 16) := by ring
    rw [roundedCos_eq_roundHalfAway n k h8, hangle]
  · have hangle : 2 * pi * k / 32 = pi - (16 - k : Nat) * (pi / 16) := by
      rw [Nat.cast_sub h16]
      ring
    rw [roundedCos_eq_roundHalfAway n _ (by omega), hangle, Real.cos_pi_sub, mul_neg, roundHalfAway_neg]
  · have hangle : 2 * pi * k / 32 = (k - 16 : Nat) * (pi / 16) + pi := by
      rw [Nat.cast_sub (by omega)]
      push_cast
      ring
    rw [roundedCos_eq_roundHalfAway n _ (by omega), hangle, Real.cos_add_pi, mul_neg, roundHalfAway_neg]
  · have hangle : 2 * pi * k / 32 = 2 * pi - (32 - k : Nat) * (pi / 16) := by
      rw [Nat.cast_sub hk.le]
      push_cast
      ring
    rw [roundedCos_eq_roundHalfAway n _ (by omega), hangle, Real.cos_two_pi_sub]

/-- The sine is the cosine a quarter turn earlier. -/
theorem sinOffset_eq (n k : Nat) (hk : k < 32) :
    sinOffset n k = roundHalfAway (sqrt n * sin (2 * pi * k / 32)) := by
  rw [sinOffset, cosOffset_eq n _ (Nat.mod_lt _ (by omega)), ← Real.cos_sub_pi_div_two]
  rcases Nat.lt_or_ge k 8 with h | h
  · have hangle : 2 * pi * ((k + 24) % 32 : Nat) / 32 = 2 * pi * k / 32 - pi / 2 + 2 * pi := by
      rw [Nat.mod_eq_of_lt (by omega)]
      push_cast
      ring
    rw [hangle, Real.cos_add_two_pi]
  · have hmod : (k + 24) % 32 = k - 8 := by omega
    have hangle : 2 * pi * ((k + 24) % 32 : Nat) / 32 = 2 * pi * k / 32 - pi / 2 := by
      rw [hmod, Nat.cast_sub h]
      push_cast
      ring
    rw [hangle]

theorem mem_circlePoints (c : Point) (n : Nat) (p : Point) : p ∈ circlePoints c n ↔
    ∃ k < 32, p ∈ linePoints (circleVertex c n k) (circleVertex c n ((k + 1) % 32)) := by
  simp [circlePoints, circleSegments]

/-- Settles O45: both offsets of a vertex are the exact roundings, by R244's symmetries and a quarter turn. -/
theorem circleVerticesAreExactRoundings : Obligations.CircleVerticesAreExactRoundings :=
  ⟨fun c n k hk => ⟨congrArg (c.x + ·) (cosOffset_eq n k hk), congrArg (c.y + ·) (sinOffset_eq n k hk)⟩,
    mem_circlePoints⟩

/-! The circle of radius 0 (R245). -/

theorem circleVertex_zero (c : Point) (k : Nat) (hk : k < 32) : circleVertex c 0 k = c := by
  have hcos : ∀ k < 32, cosOffset 0 k = 0 := by decide
  simp [circleVertex, sinOffset, hcos k hk, hcos _ (Nat.mod_lt (k + 24) (show 0 < 32 by omega))]

theorem linePoints_self (c : Point) : linePoints c c = [c] := by
  simp [linePoints_eq, lineSteps, linePos_zero]

/-- Settles O46: all 32 vertices are the centre. -/
theorem circleOfRadiusZeroIsItsCentre : Obligations.CircleOfRadiusZeroIsItsCentre := by
  intro c p
  rw [mem_circlePoints]
  constructor
  · rintro ⟨k, hk, hp⟩
    rw [circleVertex_zero c k hk, circleVertex_zero c _ (Nat.mod_lt _ (by omega)), linePoints_self] at hp
    exact List.mem_singleton.1 hp
  · rintro rfl
    refine ⟨0, by omega, ?_⟩
    rw [circleVertex_zero p 0 (by omega), circleVertex_zero p _ (by omega), linePoints_self]
    exact List.mem_singleton_self p

end Sys2Proof.Machine
end
